-- ==== Sys2Proof/Word.lean ====
section
/-! DEFINITION. The operand and data types of 30_encoding.md R73 and 10_state.md R20, and no arithmetic: wrapping
addition is that of `BitVec`. -/

namespace Sys2Proof

/-- An 8-bit quantity: a general register, a byte of memory, an immediate (R20, R73). -/
abbrev Byte := BitVec 8

/-- A 16-bit quantity: an instruction word, PC, I, a stack entry (R20, R73). -/
abbrev Word := BitVec 16

/-- The 12-bit address carried inside an instruction (R73). -/
abbrev Addr := BitVec 12

/-- A register index, 0x0 to 0xF (R73, R21). -/
abbrev Reg := Fin 16

/-- The sprite height of DRW, 0 to 15 (R73). -/
abbrev Nib := Fin 16

/-- VF, the general register that is also the flag register (R23, R24). -/
abbrev VF : Reg := 0xF

end Sys2Proof
end

