-- ==== Sys2Proof/Syntax.lean ====
section
/-! DEFINITION. The instruction value: the closed sum of 30_encoding.md R72, in the source's order. -/

namespace Sys2Proof

/-- One constructor per row of spec/opcode_table.json (R72). The operand types carry the ranges of R73, so an
out-of-range operand cannot be written (R75). -/
inductive Instr where
  /-- SYS, ignored-system-call. -/
  | sys
  /-- RET, return-from-subroutine. -/
  | ret
  /-- JP addr, jump. -/
  | jp (a : Addr)
  /-- CALL addr, call-subroutine. -/
  | call (a : Addr)
  /-- SE Vx, kk, skip-if-register-equals-immediate. -/
  | seImm (x : Reg) (k : Byte)
  /-- SNE Vx, kk, skip-if-register-not-equals-immediate. -/
  | sneImm (x : Reg) (k : Byte)
  /-- SE Vx, Vy, skip-if-registers-equal. -/
  | seReg (x y : Reg)
  /-- SNE Vx, Vy, skip-if-registers-not-equal. -/
  | sneReg (x y : Reg)
  /-- LD Vx, kk, load-immediate. -/
  | ldImm (x : Reg) (k : Byte)
  /-- ADD Vx, kk, add-immediate. -/
  | addImm (x : Reg) (k : Byte)
  /-- ADD Vx, Vy, add-registers-with-carry. -/
  | addReg (x y : Reg)
  /-- LD I, addr, load-index. -/
  | ldI (a : Addr)
  /-- RND Vx, kk, random-and-mask. -/
  | rnd (x : Reg) (k : Byte)
  /-- DRW Vx, Vy, n, draw-sprite. -/
  | drw (x y : Reg) (n : Nib)
  /-- ADD I, Vx, add-index-from-register. -/
  | addI (x : Reg)
  /-- UNRECOGNIZED, carrying the original word. -/
  | unrecognized (w : Word)
  deriving DecidableEq, Repr

end Sys2Proof
end

