-- ==== Sys2Proof/WellFormed.lean ====
section
/-! DEFINITION. Well-formed instruction values (30_encoding.md R92), read from the opcode table's masks and patterns,
not from the decoder. -/

namespace Sys2Proof

/-- A row of spec/opcode_table.json: the words `w` with `w AND mask = pattern`. -/
structure OpcodeRow where
  mnemonic : String
  mask : Word
  pattern : Word
  deriving DecidableEq, Repr

/-- The row's words. -/
def OpcodeRow.covers (r : OpcodeRow) (w : Word) : Bool := w &&& r.mask == r.pattern

/-- The fifteen modelled rows of the table, in its order; UNRECOGNIZED is every word none of them covers. -/
def opcodeRows : List OpcodeRow :=
  [⟨"SYS", 0xF000, 0x0000⟩, ⟨"RET", 0xFFFF, 0x00EE⟩, ⟨"JP", 0xF000, 0x1000⟩, ⟨"CALL", 0xF000, 0x2000⟩,
   ⟨"SE_Vx__kk", 0xF000, 0x3000⟩, ⟨"SNE_Vx__kk", 0xF000, 0x4000⟩, ⟨"SE_Vx__Vy", 0xF00F, 0x5000⟩,
   ⟨"SNE_Vx__Vy", 0xF00F, 0x9000⟩] ++
  [⟨"LD_Vx__kk", 0xF000, 0x6000⟩, ⟨"ADD_Vx__kk", 0xF000, 0x7000⟩, ⟨"ADD_Vx__Vy", 0xF00F, 0x8004⟩,
   ⟨"LD_I__addr", 0xF000, 0xA000⟩, ⟨"RND_Vx__kk", 0xF000, 0xC000⟩, ⟨"DRW_Vx__Vy__n", 0xF000, 0xD000⟩,
   ⟨"ADD_I__Vx", 0xF0FF, 0xF01E⟩]

/-- Some modelled row covers the word. -/
def modelledWord (w : Word) : Bool := opcodeRows.any (·.covers w)

/-- Every value is well-formed but `unrecognized w` for a word `w` that spells a modelled instruction (R92, decision
D4). The operands' ranges hold by their types (R75). -/
def Instr.wf : Instr → Bool
  | .sys => true
  | .ret => true
  | .jp _ => true
  | .call _ => true
  | .seImm _ _ => true
  | .sneImm _ _ => true
  | .seReg _ _ => true
  | .sneReg _ _ => true
  | .ldImm _ _ => true
  | .addImm _ _ => true
  | .addReg _ _ => true
  | .ldI _ => true
  | .rnd _ _ => true
  | .drw _ _ _ => true
  | .addI _ => true
  | .unrecognized w => !modelledWord w

/-- The table's mnemonic of a constructor, letter for letter. -/
def Instr.mnemonic : Instr → String
  | .sys => "SYS"
  | .ret => "RET"
  | .jp _ => "JP"
  | .call _ => "CALL"
  | .seImm _ _ => "SE_Vx__kk"
  | .sneImm _ _ => "SNE_Vx__kk"
  | .seReg _ _ => "SE_Vx__Vy"
  | .sneReg _ _ => "SNE_Vx__Vy"
  | .ldImm _ _ => "LD_Vx__kk"
  | .addImm _ _ => "ADD_Vx__kk"
  | .addReg _ _ => "ADD_Vx__Vy"
  | .ldI _ => "LD_I__addr"
  | .rnd _ _ => "RND_Vx__kk"
  | .drw _ _ _ => "DRW_Vx__Vy__n"
  | .addI _ => "ADD_I__Vx"
  | .unrecognized _ => "UNRECOGNIZED"

end Sys2Proof
end

