-- ==== Sys2Proof/Decode.lean ====
section
/-! DEFINITION. The codec of 30_encoding.md: fields (R71), `decode` (R77 to R90), decoding from bytes, `encode` (R91)
and the variant tag (R72). -/

namespace Sys2Proof

/-- `w[15:12]`, the dispatch nibble (R71). -/
def opField (w : Word) : Nat := (w.extractLsb' 12 4).toNat

/-- The 4-bit field of `w` whose lowest bit is `lo`, as an index: `x` at 8, `y` at 4, `n` at 0 (R71). -/
def nibField (w : Word) (lo : Nat) : Fin 16 := ⟨(w.extractLsb' lo 4).toNat, (w.extractLsb' lo 4).isLt⟩

/-- `w[11:8]`, the first register field (R71). -/
def xField (w : Word) : Reg := nibField w 8

/-- `w[7:4]`, the second register field (R71). -/
def yField (w : Word) : Reg := nibField w 4

/-- `w[3:0]`, the sprite height or sub-function nibble (R71). -/
def nField (w : Word) : Nib := nibField w 0

/-- `w[7:0]`, the immediate byte, or group F's sub-function byte (R71). -/
def kkField (w : Word) : Byte := w.extractLsb' 0 8

/-- `w[11:0]`, the address (R71). -/
def nnnField (w : Word) : Addr := w.extractLsb' 0 12

/-- `decode` (R78): total, dispatching on the highest nibble; it reads nothing but the word (R77). The last arm is the
groups 0xB and 0xE (R89). -/
def decode (w : Word) : Instr :=
  match opField w with
  | 0x0 => if w = 0x00EE then .ret else .sys
  | 0x1 => .jp (nnnField w)
  | 0x2 => .call (nnnField w)
  | 0x3 => .seImm (xField w) (kkField w)
  | 0x4 => .sneImm (xField w) (kkField w)
  | 0x5 => if nField w = 0x0 then .seReg (xField w) (yField w) else .unrecognized w
  | 0x6 => .ldImm (xField w) (kkField w)
  | 0x7 => .addImm (xField w) (kkField w)
  | 0x8 => if nField w = 0x4 then .addReg (xField w) (yField w) else .unrecognized w
  | 0x9 => if nField w = 0x0 then .sneReg (xField w) (yField w) else .unrecognized w
  | 0xA => .ldI (nnnField w)
  | 0xC => .rnd (xField w) (kkField w)
  | 0xD => .drw (xField w) (yField w) (nField w)
  | 0xF => if kkField w = 0x1E then .addI (xField w) else .unrecognized w
  | _ => .unrecognized w

/-- The big-endian word of two bytes, the byte at the lower address holding bits 15:8 (20_memory.md R55). -/
def wordOfBytes (hi lo : Byte) : Word := hi ++ lo

/-- Bits 15:8 of a word, the byte at the lower address (R55). -/
def hiByte (w : Word) : Byte := w.extractLsb' 8 8

/-- Bits 7:0 of a word, the byte at the higher address (R55). -/
def loByte (w : Word) : Byte := w.extractLsb' 0 8

/-- Why bytes do not decode. -/
inductive DecodeError where
  /-- Fewer than the two bytes of the one instruction length (R70). Safe: nothing is decoded. -/
  | truncated
  deriving DecidableEq, Repr

/-- The instruction at the front of a byte sequence, and the bytes after it (R70, R55). -/
def decodeBytes : List Byte → Except DecodeError (Instr × List Byte)
  | hi :: lo :: rest => .ok (decode (wordOfBytes hi lo), rest)
  | _ => .error .truncated

/-- The host's view of the decoder: the instruction read from the word `w` of `nbits` bits, the bits above being 0.
No instruction is longer than 16 bits (R70). -/
def decodeTableWord (nbits w : Nat) : Option Instr :=
  if nbits ≤ 16 then
    match decodeBytes [hiByte (BitVec.ofNat 16 (w % 2 ^ nbits)), loByte (BitVec.ofNat 16 (w % 2 ^ nbits))] with
    | .ok (i, _) => some i
    | .error _ => none
  else none

/-- A register index or sprite height as the four bits of its field (R76). -/
def nibBits (x : Fin 16) : BitVec 4 := BitVec.ofNat 4 x.val

/-- Format `A`: opcode nibble, 12-bit address (R76). -/
def formatA (op : BitVec 4) (a : Addr) : Word := op ++ a

/-- Format `XK`: opcode nibble, register, immediate byte (R76). -/
def formatXK (op : BitVec 4) (x : Reg) (k : Byte) : Word := op ++ nibBits x ++ k

/-- Formats `XYF` and `XYN`: opcode nibble, two registers, sub-function nibble or sprite height (R76). -/
def formatXYN (op : BitVec 4) (x y : Reg) (n : BitVec 4) : Word := op ++ nibBits x ++ nibBits y ++ n

/-- `encode` (R91), by the formats of R76. `sys` encodes as 0x0000 (decision D3; log 7). -/
def encode : Instr → Word
  | .sys => 0x0000
  | .ret => 0x00EE
  | .jp a => formatA 0x1 a
  | .call a => formatA 0x2 a
  | .seImm x k => formatXK 0x3 x k
  | .sneImm x k => formatXK 0x4 x k
  | .seReg x y => formatXYN 0x5 x y 0x0
  | .sneReg x y => formatXYN 0x9 x y 0x0
  | .ldImm x k => formatXK 0x6 x k
  | .addImm x k => formatXK 0x7 x k
  | .addReg x y => formatXYN 0x8 x y 0x4
  | .ldI a => formatA 0xA a
  | .rnd x k => formatXK 0xC x k
  | .drw x y n => formatXYN 0xD x y (nibBits n)
  | .addI x => formatXK 0xF x 0x1E
  | .unrecognized w => w

/-- The variant's number in the source's order, its tag where a bus needs one (R72, decision D1; log 25). -/
def Instr.tag : Instr → Fin 16
  | .sys => 0
  | .ret => 1
  | .jp _ => 2
  | .call _ => 3
  | .seImm _ _ => 4
  | .sneImm _ _ => 5
  | .seReg _ _ => 6
  | .sneReg _ _ => 7
  | .ldImm _ _ => 8
  | .addImm _ _ => 9
  | .addReg _ _ => 10
  | .ldI _ => 11
  | .rnd _ _ => 12
  | .drw _ _ _ => 13
  | .addI _ => 14
  | .unrecognized _ => 15

end Sys2Proof
end

