-- ==== Sys2Proof/Config.lean ====
section
/-! DEFINITION. What is fixed for the machine: the sizes of 00_scope.md R8, the named parameters of R9 with the value
the spec takes for this hardware, and the one free value (the random byte). -/

namespace Sys2Proof.Config

/-- Bytes of memory (R8): addresses 0x000 to 0xFFF. -/
abbrev memSize : Nat := 0x1000

/-- Where a program is loaded, and the reset value of PC (R8, R53). -/
abbrev loadAddress : Nat := 0x200

/-- The longest program, 0xFFF − 0x200 = 0xDFF bytes (R8, R52; 90_conflicts.md C5). -/
abbrev maxProgram : Nat := 0xDFF

/-- Physical pixels per logical pixel in each dimension, the parameter `SCALE` (R9). -/
abbrev scale : Nat := 10

/-- The values of the parameter `FETCH_LIMIT` (R9): the first address at which a two-byte fetch no longer fits. -/
inductive FetchLimit where
  /-- 0x1000, the end of memory. -/
  | endOfMemory
  /-- 0x200 + program length, the end of the loaded program. -/
  | endOfProgram
  deriving DecidableEq, Repr

/-- This hardware's `FETCH_LIMIT` (R9, decision D6). DESIGN CHOICE of the spec, log 5. -/
def fetchLimit : FetchLimit := .endOfMemory

/-- The values of the parameter `DRAW_EDGE` (R9, 45_draw.md R225): what a sprite pixel outside 64 × 32 does. -/
inductive DrawEdge where
  | wrap
  | clip
  | fault
  deriving DecidableEq, Repr

/-- This hardware's `DRAW_EDGE` (R9, R225, decision D8). DESIGN CHOICE of the spec, log 6. -/
def drawEdge : DrawEdge := .wrap

/-- The parameters an instantiation of the machine chooses beside `RNG` and the fixed `SCALE` (R9). -/
structure Params where
  fetchLimit : FetchLimit
  drawEdge : DrawEdge
  deriving DecidableEq, Repr

/-- This hardware's parameters (R9; logs 5, 6). -/
def hardware : Params := ⟨fetchLimit, drawEdge⟩

/-- This hardware's parameter `RNG` (R9, decision D12): the byte the k-th RND of the machine draws. A FREE VALUE with no body:
nothing is known of it but its 8 bits. DESIGN CHOICE, log 3. -/
opaque rngByte : Nat → Byte

end Sys2Proof.Config
end

