-- ==== Sys2Proof/Machine/State.lean ====
section
/-! DEFINITION. The machine's state (10_state.md R20), its reset value (R39, 70_reset_and_hazards.md R290), and the
reasons a step or an operation can stop. -/

namespace Sys2Proof.Machine

/-- The halt reasons of 60_exceptions.md R261. -/
inductive HaltReason where
  /-- Normal end: the host predicate was false when polled (`run`, R131). -/
  | hostStop
  /-- Normal end: PC + 2 > `FETCH_LIMIT` at fetch (`step`, R124). -/
  | noMoreInstructions
  /-- Fatal: RET with SP = 0 (R151). -/
  | stackUnderflow
  /-- Fatal: a word that decodes to `unrecognized` was executed; it records the word (R250). -/
  | unrecognizedInstruction (w : Word)
  /-- Fatal: CALL with SP = 16 (R153, decision D7). -/
  | stackOverflow
  /-- Fatal: DRW with n > 0 and I + n − 1 > 0xFFF (R231, decision D9). -/
  | spriteOutOfRange
  /-- Fatal, only if `DRAW_EDGE` = `Fault`: DRW with a set sprite bit outside 64 × 32 (R230). -/
  | drawOutOfBounds
  deriving DecidableEq, Repr

/-- The executor's run state (R32). -/
inductive Status where
  | running
  | halted (reason : HaltReason)
  deriving DecidableEq, Repr

/-- Memory as the cells that differ from what an unlisted address reads as, addresses rising: see `Memory.wf`. -/
abbrev Memory := List Host.Cell

/-- The logical framebuffer, column by column: `fb[x][y]` (R20, R34). -/
abbrev Framebuffer := Vector (Vector Bool 32) 64

/-- `new(64, 32)`: all pixels unset (45_draw.md R220). -/
def Framebuffer.blank : Framebuffer := Vector.replicate 64 (Vector.replicate 32 false)

/-- The machine's state: the record of R20 and two fields of the model's own. -/
structure State where
  /-- V[0x0] to V[0xF] (R21). -/
  v : Vector Byte 16
  /-- The index register I (R28). -/
  i : Word
  /-- The program counter PC (R25). -/
  pc : Word
  /-- SP, the number of stack entries in use (R29). -/
  sp : Fin 17
  /-- The return-address stack (R29). -/
  stack : Vector Word 16
  /-- Memory (R33). -/
  mem : Memory
  /-- The logical framebuffer FB (R34). -/
  fb : Framebuffer
  /-- The run state (R32). -/
  status : Status
  /-- The length of the loaded program, 0 to 0xDFF (R37). -/
  progLen : Fin 0xE00
  /-- THE MODEL'S OWN: whether `load` has been applied, which 40_fetch_execute.md R123 asks. DESIGN CHOICE, log 4. -/
  loaded : Bool
  /-- THE MODEL'S OWN: how many random bytes have been drawn; the next is `Config.rngByte rngDraws`. DESIGN CHOICE,
  log 3. -/
  rngDraws : Nat
  deriving DecidableEq, Repr

/-- Why a step ends with no next state. -/
inductive Fault where
  /-- Raised by `memRead` for an address above 0xFFF, which does not exist (20_memory.md R50, R54). No step reaches it,
  since fetch and DRW check their addresses first. Safe: the machine stops. Log 21. -/
  | noSuchAddress (a : Nat)
  deriving DecidableEq, Repr

/-- Why an operation has no meaning. -/
inductive Refusal where
  /-- For an arm of `exec` with no meaning yet; no arm raises it. Safe: nothing is claimed of the instruction. -/
  | notModelled (mnemonic : String)
  /-- Raised by `load` on a machine that is not freshly reset (40_fetch_execute.md R123, decision D19). Safe: the model
  gives such a load no meaning. Log 4. -/
  | loadNotFresh
  deriving DecidableEq, Repr

/-- The machine right after reset, before `load` (R39, R290). PC, the blank framebuffer and `running` are stated by the
source; the zeros are decision D11 (log 2); `loaded` and `rngDraws` are the model's own (log 4, log 3). -/
def State.reset : State where
  v := Vector.replicate 16 0x00
  i := 0x0000
  pc := 0x0200
  sp := 0
  stack := Vector.replicate 16 0x0000
  mem := []
  fb := Framebuffer.blank
  status := .running
  progLen := 0
  loaded := false
  rngDraws := 0

end Sys2Proof.Machine
end

