-- ==== Sys2Proof/Machine/Ops.lean ====
section
/-! DEFINITION. The named operations over memory, registers, PC, stack, status and the random source, which every
meaning and the step are written in. -/

namespace Sys2Proof.Machine

/-- What an address with no cell listed reads as: the reset contents 0x00 (10_state.md R39, decision D11; log 2). -/
def Memory.unlisted : Byte := 0x00

/-- The byte at address `a` of a memory; the address is checked by `memRead`. -/
def Memory.read : Memory → Nat → Byte
  | [], _ => Memory.unlisted
  | (a', b) :: m, a => if a = a' then b else Memory.read m a

/-- The memory with byte `b` at address `a`, in canonical form. -/
def Memory.write : Memory → Nat → Byte → Memory
  | [], a, b => if b = Memory.unlisted then [] else [(a, b)]
  | (a', b') :: m, a, b =>
    if a < a' then if b = Memory.unlisted then (a', b') :: m else (a, b) :: (a', b') :: m
    else if a = a' then if b = Memory.unlisted then m else (a, b) :: m
    else (a', b') :: Memory.write m a b

/-- The memory with the bytes `bs` at `a`, `a + 1`, … -/
def Memory.writeBytes : Memory → Nat → List Byte → Memory
  | m, _, [] => m
  | m, a, b :: bs => Memory.writeBytes (Memory.write m a b) (a + 1) bs

/-- The canonical form from address `lo` up: addresses strictly rising from `lo`, each in the address space, and no
cell equal to what an unlisted address reads as. -/
def Memory.wfFrom : Nat → Memory → Bool
  | _, [] => true
  | lo, (a, b) :: m => decide (lo ≤ a) && decide (a < Config.memSize) && b != Memory.unlisted && Memory.wfFrom (a + 1) m

/-- The canonical form of memory. -/
def Memory.wf (m : Memory) : Bool := Memory.wfFrom 0 m

/-- `MemRead(a, 1)` (20_memory.md R54): an address above 0xFFF does not exist. -/
def memRead (m : Memory) (a : Nat) : Except Fault Byte :=
  if a < Config.memSize then .ok (m.read a) else .error (.noSuchAddress a)

/-- The `n` bytes at `a`, `a + 1`, …, one single-byte read each (20_memory.md R57). -/
def readRows (m : Memory) : Nat → Nat → Except Fault (List Byte)
  | _, 0 => .ok []
  | a, n + 1 =>
    match memRead m a with
    | .error f => .error f
    | .ok b =>
      match readRows m (a + 1) n with
      | .error f => .error f
      | .ok bs => .ok (b :: bs)

/-- `V[x]` (R21). -/
def State.readV (s : State) (x : Reg) : Byte := s.v[x.val]

/-- `V[x] <- b` (R21). No register is hardwired. -/
def State.writeV (s : State) (x : Reg) (b : Byte) : State := { s with v := s.v.set x.val b }

/-- `I <- w` (R28). -/
def State.writeI (s : State) (w : Word) : State := { s with i := w }

/-- `PC <- w` (R25). -/
def State.writePc (s : State) (w : Word) : State := { s with pc := w }

/-- `PC <- PC + 2`: the advance after a fetch (40_fetch_execute.md R125), and a taken skip (42_skip.md). The addition is
in 16 bits (R174). -/
def State.advancePc (s : State) : State := s.writePc (s.pc + 2)

/-- `FB <- fb` (R34). -/
def State.writeFb (s : State) (fb : Framebuffer) : State := { s with fb := fb }

/-- `status <- Halted(r)` (R32). -/
def State.halt (s : State) (r : HaltReason) : State := { s with status := .halted r }

/-- `push(w)` (R30): none when SP = 16, where CALL raises StackOverflow (decision D7; log 9). -/
def State.push (s : State) (w : Word) : Option State :=
  if h : s.sp.val < 16 then
    some { s with stack := s.stack.set s.sp.val w, sp := ⟨s.sp.val + 1, Nat.succ_lt_succ h⟩ }
  else none

/-- `pop()` (R30): the popped entry and the state with SP one less, the entry not cleared; none when SP = 0, where RET
raises StackUnderflow. -/
def State.pop (s : State) : Option (Word × State) :=
  if h : 0 < s.sp.val then
    some (s.stack[s.sp.val - 1], { s with sp := ⟨s.sp.val - 1, by omega⟩ })
  else none

/-- Draws the step's random byte (R36, R195): the free value at the state's counter, which moves on. -/
def State.drawRandom (s : State) : Byte × State := (Config.rngByte s.rngDraws, { s with rngDraws := s.rngDraws + 1 })

/-- Taking a fatal condition, `raise Fatal(r)` (60_exceptions.md R260, R262): the status records the reason, nothing
else is written, and PC keeps the advanced value. There is no entry to a handler and no return (R265). Log 1. -/
def raiseFatal (r : HaltReason) (s : State) : Host.Outcome State Fault Refusal := .next (s.halt r)

/-- The spec's code of a halt reason (R261, decision D16; log 25). -/
def HaltReason.code : HaltReason → Nat
  | .hostStop => 0
  | .noMoreInstructions => 1
  | .stackUnderflow => 2
  | .unrecognizedInstruction _ => 3
  | .stackOverflow => 4
  | .spriteOutOfRange => 5
  | .drawOutOfBounds => 6

/-- The fatal reasons, codes 2 to 6 (R261, R263). -/
def HaltReason.isFatal (r : HaltReason) : Bool := decide (2 ≤ r.code)

/-- The address a value of `FETCH_LIMIT` stands for (R9). -/
def limitAddress (l : Config.FetchLimit) (s : State) : Nat :=
  match l with
  | .endOfMemory => Config.memSize
  | .endOfProgram => Config.loadAddress + s.progLen.val

/-- Fetch (40_fetch_execute.md R124): the big-endian word at PC, or none when PC + 2 passes the limit. -/
def fetchWord (l : Config.FetchLimit) (s : State) : Except Fault (Option Word) :=
  if s.pc.toNat + 2 ≤ limitAddress l s then
    match memRead s.mem s.pc.toNat, memRead s.mem (s.pc.toNat + 1) with
    | .ok hi, .ok lo => .ok (some (wordOfBytes hi lo))
    | .error f, _ => .error f
    | .ok _, .error f => .error f
  else .ok none

/-- The state with word `w` where the next fetch reads it: its bytes at PC and PC + 1, high byte first (R55). Where
those addresses do not both exist, there is nowhere to store it and the state is as it was. -/
def State.storeWordAtPc (s : State) (w : Word) : State :=
  if s.pc.toNat + 1 < Config.memSize then
    { s with mem := s.mem.writeBytes s.pc.toNat [hiByte w, loByte w] }
  else s

end Sys2Proof.Machine
end

