-- ==== Sys2Proof/Machine/Operands.lean ====
section
/-! DEFINITION. The operand forms (30_encoding.md R73): their fail-fast construction from a wider value (R74, R75) and
the value each form gives an instruction. -/

namespace Sys2Proof.Machine

/-- Why an operand cannot be built. Neither halts a machine (60_exceptions.md R261). -/
inductive OperandError where
  /-- An address above 0xFFF (R74). Safe: refused, never truncated. -/
  | addressTooLarge
  /-- A register index or nibble above 15, a byte above 255 or a word above 0xFFFF (R75). Safe: refused. -/
  | valueTooLarge
  deriving DecidableEq, Repr

/-- An `Addr` from any value, the fail-fast policy (R74; 90_conflicts.md C8). -/
def mkAddr (v : Nat) : Except OperandError Addr :=
  if v ≤ 0xFFF then .ok (BitVec.ofNat 12 v) else .error .addressTooLarge

/-- A `Reg` from any value (R75, decision D5; log 17). -/
def mkReg (v : Nat) : Except OperandError Reg :=
  if h : v < 16 then .ok ⟨v, h⟩ else .error .valueTooLarge

/-- A `Nib` from any value (R75, decision D5; log 17). -/
def mkNib (v : Nat) : Except OperandError Nib :=
  if h : v < 16 then .ok ⟨v, h⟩ else .error .valueTooLarge

/-- A `Byte` from any value (R75, decision D5; log 17). -/
def mkByte (v : Nat) : Except OperandError Byte :=
  if v ≤ 0xFF then .ok (BitVec.ofNat 8 v) else .error .valueTooLarge

/-- A `Word` from any value (R75, decision D5; log 17). -/
def mkWord (v : Nat) : Except OperandError Word :=
  if v ≤ 0xFFFF then .ok (BitVec.ofNat 16 v) else .error .valueTooLarge

/-- An `unrecognized` value from any word, refused where the word spells a modelled instruction (R92, decision D4). -/
def mkUnrecognized (w : Word) : Option Instr := if modelledWord w then none else some (.unrecognized w)

/-- `zext_16(a)`: an address operand as a value of PC or I (R152, R153, R210). -/
def addrValue (a : Addr) : Word := a.setWidth 16

/-- `zext_16(V[x])`: a register operand as an offset added to I (R212). -/
def State.readV16 (s : State) (x : Reg) : Word := (s.readV x).setWidth 16

/-- A register operand as a coordinate, unbounded (R230). -/
def State.coordinate (s : State) (x : Reg) : Nat := (s.readV x).toNat

end Sys2Proof.Machine
end

