-- ==== Sys2Proof/Machine/Control.lean ====
section
/-! DEFINITION. Control transfer (41_control.md): SYS, RET, JP, CALL. In every meaning PC already holds the fetch
address plus 2 (R125; log 23). -/

namespace Sys2Proof.Machine

/-- SYS: no state change (R150). -/
def execSys (s : State) : Host.Outcome State Fault Refusal := .next s

/-- RET (R151): fatal StackUnderflow with an empty stack, else PC takes the popped entry. -/
def execRet (s : State) : Host.Outcome State Fault Refusal :=
  match s.pop with
  | none => raiseFatal .stackUnderflow s
  | some (w, t) => .next (t.writePc w)

/-- JP addr (R152). -/
def execJp (a : Addr) (s : State) : Host.Outcome State Fault Refusal := .next (s.writePc (addrValue a))

/-- CALL addr (R153): fatal StackOverflow with a full stack (decision D7; log 9), else pushes the advanced PC. -/
def execCall (a : Addr) (s : State) : Host.Outcome State Fault Refusal :=
  match s.push s.pc with
  | none => raiseFatal .stackOverflow s
  | some t => .next (t.writePc (addrValue a))

end Sys2Proof.Machine
end

