-- ==== Sys2Proof/Machine/Flags.lean ====
section
/-! DEFINITION. The two flag computations, carry and collision, and the write of VF (10_state.md R23). -/

namespace Sys2Proof.Machine

/-- The carry of an 8-bit addition: the unsigned sum is 256 or more (43_register.md R193). -/
def carry (a b : Byte) : Bool := decide (256 ≤ a.toNat + b.toNat)

/-- The stored result of an 8-bit addition, `(a + b) mod 256` (R193). -/
def sum8 (a b : Byte) : Byte := BitVec.ofNat 8 (a.toNat + b.toNat)

/-- A flag as the value VF takes, 1 or 0 (R194, 45_draw.md R232). -/
def flagByte (f : Bool) : Byte := if f then 0x01 else 0x00

/-- The side-effect write of VF, the last write of its instruction (R23, R24, R296). -/
def State.writeFlag (s : State) (f : Bool) : State := s.writeV VF (flagByte f)

end Sys2Proof.Machine
end

