-- ==== Sys2Proof/Machine/Framebuffer.lean ====
section
/-! DEFINITION. The framebuffer's primitives (45_draw.md R220 to R224), the edge policy (R225) and the physical view
(R228). -/

namespace Sys2Proof.Machine

/-- `get(x, y)` (R221). -/
def Framebuffer.get (fb : Framebuffer) (x : Fin 64) (y : Fin 32) : Bool := fb[x.val][y.val]

/-- `set(x, y, value)` (R222). -/
def Framebuffer.set (fb : Framebuffer) (x : Fin 64) (y : Fin 32) (b : Bool) : Framebuffer :=
  Vector.set fb x.val (Vector.set fb[x.val] y.val b)

/-- A framebuffer after a drawing primitive, and the Boolean the primitive returns. -/
structure Drawn where
  fb : Framebuffer
  collided : Bool
  deriving DecidableEq, Repr

/-- `xor(x, y, bit)` (R223): flips the cell if the bit is true, and reports a flip from set to unset. -/
def Framebuffer.xor (fb : Framebuffer) (x : Fin 64) (y : Fin 32) (bit : Bool) : Drawn :=
  if bit then ⟨fb.set x y (!fb.get x y), fb.get x y⟩ else ⟨fb, false⟩

/-- `target(px, py)` (R225): the cell a pixel at unbounded coordinates falls on, none where the policy skips it. -/
def target (e : Config.DrawEdge) (px py : Nat) : Option (Fin 64 × Fin 32) :=
  match e with
  | .wrap => some (⟨px % 64, Nat.mod_lt _ (by decide)⟩, ⟨py % 32, Nat.mod_lt _ (by decide)⟩)
  | .clip | .fault => if h : px < 64 ∧ py < 32 then some (⟨px, h.1⟩, ⟨py, h.2⟩) else none

/-- The sprite bit of a row at column `dx`, most significant first: bit 7 − dx (R224). -/
def spriteBit (row : Byte) (dx : Nat) : Bool := row.getLsbD (7 - dx)

/-- One bit of `draw_sprite` (R224), at unbounded coordinates `px`, `py`. -/
def drawBit (e : Config.DrawEdge) (px py : Nat) (bit : Bool) (d : Drawn) : Drawn :=
  match target e px py with
  | some (tx, ty) => ⟨(d.fb.xor tx ty bit).fb, d.collided || (d.fb.xor tx ty bit).collided⟩
  | none => d

/-- One row of `draw_sprite`: its eight columns from the left (R224). -/
def drawRow (e : Config.DrawEdge) (px py : Nat) (row : Byte) (d : Drawn) : Drawn :=
  (List.range 8).foldl (fun d dx => drawBit e (px + dx) py (spriteBit row dx) d) d

/-- The rows of `draw_sprite` from `py` down (R224). -/
def drawRows (e : Config.DrawEdge) (px : Nat) : Nat → List Byte → Drawn → Drawn
  | _, [], d => d
  | py, row :: rows, d => drawRows e px (py + 1) rows (drawRow e px py row d)

/-- `draw_sprite(X, Y, rows)` (R224): the collision flag is the OR over all set-to-unset flips. -/
def drawSprite (e : Config.DrawEdge) (px py : Nat) (rows : List Byte) (fb : Framebuffer) : Drawn :=
  drawRows e px py rows ⟨fb, false⟩

/-- Some set bit of the sprite has its pixel outside 64 × 32, the check of `DRAW_EDGE` = `Fault` (R230). -/
def spriteOutside (px : Nat) : Nat → List Byte → Bool
  | _, [] => false
  | py, row :: rows =>
    (List.range 8).any (fun dx => spriteBit row dx && (decide (64 ≤ px + dx) || decide (32 ≤ py))) ||
      spriteOutside px (py + 1) rows

/-- A pixel of the 640 × 320 physical buffer, a view: physical pixel (px, py) is logical pixel (px div 10, py div 10) (10_state.md
R35, 45_draw.md R228, decision D22; log 22). -/
def Framebuffer.physical (fb : Framebuffer) (px : Fin 640) (py : Fin 320) : Bool :=
  fb.get ⟨px.val / Config.scale, Nat.div_lt_of_lt_mul px.isLt⟩ ⟨py.val / Config.scale, Nat.div_lt_of_lt_mul py.isLt⟩

/-- The physical buffer as the host receives it, column by column (R228). -/
abbrev PhysicalBuffer := Vector (Vector Bool 320) 640

/-- Physical pixel (px, py) of a buffer. -/
def PhysicalBuffer.get (b : PhysicalBuffer) (px : Fin 640) (py : Fin 320) : Bool := b[px.val][py.val]

/-- The view handed to `present`: the whole physical buffer of a framebuffer (R228, R229). -/
def Framebuffer.view (fb : Framebuffer) : PhysicalBuffer :=
  Vector.ofFn fun px => Vector.ofFn fun py => fb.physical px py

end Sys2Proof.Machine
end

