-- ==== Sys2Proof/Machine/Draw.lean ====
section
/-! DEFINITION. The DRW instruction (45_draw.md R230 to R232). -/

namespace Sys2Proof.Machine

/-- The sprite of `n` rows at `a` reaches past 0xFFF (R231); on unbounded integers (R11). -/
def spritePastMemory (a n : Nat) : Bool := decide (0 < n ∧ 0xFFF < a + n - 1)

/-- DRW under a given `DRAW_EDGE`, its work in the order of R230 (decision D23; log 15): the coordinates are read, the
sprite's range is checked, all rows are read, the edge is checked under `Fault`, the sprite is drawn, and VF takes the
collision flag last. -/
def drwUnder (e : Config.DrawEdge) (x y : Reg) (n : Nib) (s : State) : Host.Outcome State Fault Refusal :=
  if spritePastMemory s.i.toNat n.val then raiseFatal .spriteOutOfRange s
  else
    match readRows s.mem s.i.toNat n.val with
    | .error f => .fault f
    | .ok rows =>
      if e = .fault ∧ spriteOutside (s.coordinate x) (s.coordinate y) rows then raiseFatal .drawOutOfBounds s
      else
        .next ((s.writeFb (drawSprite e (s.coordinate x) (s.coordinate y) rows s.fb).fb).writeFlag
          (drawSprite e (s.coordinate x) (s.coordinate y) rows s.fb).collided)

/-- DRW Vx, Vy, nibble (R230), under this hardware's `DRAW_EDGE`. -/
def execDrw (x y : Reg) (n : Nib) (s : State) : Host.Outcome State Fault Refusal := drwUnder Config.drawEdge x y n s

end Sys2Proof.Machine
end

