-- ==== Sys2Proof/Machine/Index.lean ====
section
/-! DEFINITION. The index register (44_index.md): LD I, ADD I. -/

namespace Sys2Proof.Machine

/-- LD I, addr (R210). -/
def execLdI (a : Addr) (s : State) : Host.Outcome State Fault Refusal := .next (s.writeI (addrValue a))

/-- ADD I, Vx (R211, R212): modulo 2^16, no flag, no fault (decision D10; log 11). -/
def execAddI (x : Reg) (s : State) : Host.Outcome State Fault Refusal := .next (s.writeI (s.i + s.readV16 x))

end Sys2Proof.Machine
end

