-- ==== Sys2Proof/Machine/Register.lean ====
section
/-! DEFINITION. Register loads and arithmetic (43_register.md): LD, ADD, RND. -/

namespace Sys2Proof.Machine

/-- LD Vx, byte (R190). -/
def execLdImm (x : Reg) (k : Byte) (s : State) : Host.Outcome State Fault Refusal := .next (s.writeV x k)

/-- ADD Vx, byte (R192): wraps, no flag. -/
def execAddImm (x : Reg) (k : Byte) (s : State) : Host.Outcome State Fault Refusal :=
  .next (s.writeV x (sum8 (s.readV x) k))

/-- ADD Vx, Vy (R194): both operands are read before any write, and VF takes the carry last. -/
def execAddReg (x y : Reg) (s : State) : Host.Outcome State Fault Refusal :=
  .next ((s.writeV x (sum8 (s.readV x) (s.readV y))).writeFlag (carry (s.readV x) (s.readV y)))

/-- The effect of RND with the random byte `r` given (R195): V[x] takes r AND k. -/
def rndWith (r : Byte) (x : Reg) (k : Byte) (s : State) : State := s.writeV x (r &&& k)

/-- RND under a given value `r` of the step's random byte (R127, R195); the draw is counted (log 3). -/
def rndUnder (r : Byte) (x : Reg) (k : Byte) (s : State) : Host.Outcome State Fault Refusal :=
  .next (rndWith r x k s.drawRandom.2)

/-- RND Vx, byte (R195), with this hardware's free byte (decision D12; log 3). -/
def execRnd (x : Reg) (k : Byte) (s : State) : Host.Outcome State Fault Refusal := rndUnder s.drawRandom.1 x k s

end Sys2Proof.Machine
end

