-- ==== Sys2Proof/Machine/Skip.lean ====
section
/-! DEFINITION. Conditional skips (42_skip.md). A taken skip adds a further 2 to PC and looks at no word (R174). -/

namespace Sys2Proof.Machine

/-- `if c then PC <- PC + 2`. -/
def skipIf (c : Bool) (s : State) : Host.Outcome State Fault Refusal := .next (if c then s.advancePc else s)

/-- SE Vx, byte (R170). -/
def execSeImm (x : Reg) (k : Byte) (s : State) : Host.Outcome State Fault Refusal := skipIf (s.readV x == k) s

/-- SNE Vx, byte (R171). -/
def execSneImm (x : Reg) (k : Byte) (s : State) : Host.Outcome State Fault Refusal := skipIf (s.readV x != k) s

/-- SE Vx, Vy (R172). -/
def execSeReg (x y : Reg) (s : State) : Host.Outcome State Fault Refusal := skipIf (s.readV x == s.readV y) s

/-- SNE Vx, Vy (R173). -/
def execSneReg (x y : Reg) (s : State) : Host.Outcome State Fault Refusal := skipIf (s.readV x != s.readV y) s

end Sys2Proof.Machine
end

