-- ==== Sys2Proof/Machine/Unrecognized.lean ====
section
/-! DEFINITION. Unrecognized instructions (46_unrecognized.md). -/

namespace Sys2Proof.Machine

/-- UNRECOGNIZED (R250, R251): always the fatal condition that records the word; never reinterpreted. -/
def execUnrecognized (w : Word) (s : State) : Host.Outcome State Fault Refusal :=
  raiseFatal (.unrecognizedInstruction w) s

end Sys2Proof.Machine
end

