-- ==== Sys2Proof/Machine/Dispatch.lean ====
section
/-! DEFINITION. The dispatch of 40_fetch_execute.md R126: one meaning per variant. -/

namespace Sys2Proof.Machine

def exec (i : Instr) (s : State) : Host.Outcome State Fault Refusal :=
  match i with
  | .sys => Sys2Proof.Machine.execSys s
  | .ret => Sys2Proof.Machine.execRet s
  | .jp a => Sys2Proof.Machine.execJp a s
  | .call a => Sys2Proof.Machine.execCall a s
  | .seImm x k => Sys2Proof.Machine.execSeImm x k s
  | .sneImm x k => Sys2Proof.Machine.execSneImm x k s
  | .seReg x y => Sys2Proof.Machine.execSeReg x y s
  | .sneReg x y => Sys2Proof.Machine.execSneReg x y s
  | .ldImm x k => Sys2Proof.Machine.execLdImm x k s
  | .addImm x k => Sys2Proof.Machine.execAddImm x k s
  | .addReg x y => Sys2Proof.Machine.execAddReg x y s
  | .ldI a => Sys2Proof.Machine.execLdI a s
  | .rnd x k => Sys2Proof.Machine.execRnd x k s
  | .drw x y n => Sys2Proof.Machine.execDrw x y n s
  | .addI x => Sys2Proof.Machine.execAddI x s
  | .unrecognized w => Sys2Proof.Machine.execUnrecognized w s

end Sys2Proof.Machine
end

