-- ==== Sys2Proof/Machine/Cycle.lean ====
section
/-! DEFINITION. The whole step of 40_fetch_execute.md R127, first for any `execute`, then with the parameters of
00_scope.md R9 and the step's random byte as arguments; and the parameter `RNG`. -/

namespace Sys2Proof.Machine

/-- `step` (R127) around a given `execute`: a halted machine is left alone (R128; log 14); where no word fits below the
limit the machine halts with NoMoreInstructions and PC kept (R124); else the fetched word is decoded and executed with PC
advanced (R125, R126). -/
def cycle (l : Config.FetchLimit) (execute : Instr → State → Host.Outcome State Fault Refusal) (s : State) :
    Host.Outcome State Fault Refusal :=
  match s.status with
  | .halted _ => .next s
  | .running =>
    match fetchWord l s with
    | .error f => .fault f
    | .ok none => .next (s.halt .noMoreInstructions)
    | .ok (some w) => execute (decode w) s.advancePc

/-- `execute(i, r)` (R126, R127) under a value of `DRAW_EDGE` and with the step's random byte: DRW alone reads the one,
RND alone the other. -/
def execUnder (e : Config.DrawEdge) (r : Byte) (i : Instr) (s : State) : Host.Outcome State Fault Refusal :=
  match i with
  | .drw x y n => drwUnder e x y n s
  | .rnd x k => rndUnder r x k s
  | .sys | .ret | .jp _ | .call _ | .seImm _ _ | .sneImm _ _ | .seReg _ _ | .sneReg _ _ | .ldImm _ _ | .addImm _ _
  | .addReg _ _ | .ldI _ | .addI _ | .unrecognized _ => exec i s

/-- `step(r)` (R120, R127) under given parameters. -/
def stepUnder (p : Config.Params) (r : Byte) (s : State) : Host.Outcome State Fault Refusal :=
  cycle p.fetchLimit (execUnder p.drawEdge r) s

/-- The parameter `RNG` (00_scope.md R9): the byte handed to a step, from the step's history: the states the run's earlier
steps started from, newest first, and the state this one starts from. -/
abbrev Rng := List State → State → Byte

/-- This hardware's `RNG`: the free byte at the count of draws (decision D12; log 3). -/
def freeRng : Rng := fun _ s => Config.rngByte s.rngDraws

/-- Output `k`, from 0, of the seeded generator that `next` advances. -/
def genByte {σ : Type} (next : σ → Byte × σ) : σ → Nat → Byte
  | g, 0 => (next g).1
  | g, k + 1 => genByte next (next g).2 k

/-- `RNG` as a seeded generator, for deterministic runs (R9; 10_state.md R36): each RND takes its next output (log 28). -/
def seededRng {σ : Type} (next : σ → Byte × σ) (seed : σ) : Rng := fun _ s => genByte next seed s.rngDraws

end Sys2Proof.Machine
end

