-- ==== Sys2Proof/Machine/Step.lean ====
section
/-! DEFINITION. One step of this hardware, and how the host places an instruction where it is fetched. -/

namespace Sys2Proof.Machine

/-- One step (40_fetch_execute.md R127) of this hardware: its `FETCH_LIMIT` (decision D6; log 5), and `exec`, which has
its `DRAW_EDGE` and draws its random byte (logs 6, 3). -/
def step (s : State) : Host.Outcome State Fault Refusal := cycle Config.fetchLimit exec s

/-- The state with the word `w` of `nbits` bits at PC, for the host (log 20). -/
def State.withFetchWord (s : State) (nbits w : Nat) : State := s.storeWordAtPc (BitVec.ofNat 16 (w % 2 ^ nbits))

end Sys2Proof.Machine
end

