-- ==== Sys2Proof/Machine/Render.lean ====
section
/-! DEFINITION. The textual rendering and the trace line (30_encoding.md R100, R101), which no execution rule reads
(R102). The spellings the source does not show are decisions D15 and D20 (log 18). -/

namespace Sys2Proof.Machine

/-- A digit 0 to 15 in upper-case hexadecimal (R100, decision D20). -/
def hexDigit (d : Fin 16) : Char :=
  if d.val < 10 then Char.ofNat (0x30 + d.val) else Char.ofNat (0x37 + d.val)

/-- `H1`: one hexadecimal digit. -/
def hex1 (d : Fin 16) : String := String.ofList [hexDigit d]

/-- `H2`: two hexadecimal digits. -/
def hex2 (b : Byte) : String := String.ofList [hexDigit (nibField (b.setWidth 16) 4), hexDigit (nibField (b.setWidth 16) 0)]

/-- `H4`: four hexadecimal digits. -/
def hex4 (w : Word) : String :=
  String.ofList [hexDigit (nibField w 12), hexDigit (nibField w 8), hexDigit (nibField w 4), hexDigit (nibField w 0)]

/-- A register, `V` and one digit (R100). -/
def renderReg (x : Reg) : String := "V" ++ hex1 x

/-- `render` (R100): the mnemonic and operands of an instruction. -/
def render : Instr → String
  | .sys => "SYS"
  | .ret => "RET"
  | .jp a => "JP " ++ hex4 (a.setWidth 16)
  | .call a => "CALL " ++ hex4 (a.setWidth 16)
  | .seImm x k => "SE " ++ renderReg x ++ ", " ++ hex2 k
  | .sneImm x k => "SNE " ++ renderReg x ++ ", " ++ hex2 k
  | .seReg x y => "SE " ++ renderReg x ++ ", " ++ renderReg y
  | .sneReg x y => "SNE " ++ renderReg x ++ ", " ++ renderReg y
  | .ldImm x k => "LD " ++ renderReg x ++ ", " ++ hex2 k
  | .addImm x k => "ADD " ++ renderReg x ++ ", " ++ hex2 k
  | .addReg x y => "ADD " ++ renderReg x ++ ", " ++ renderReg y
  | .ldI a => "LD I, " ++ hex4 (a.setWidth 16)
  | .rnd x k => "RND " ++ renderReg x ++ ", " ++ hex2 k
  | .drw x y n => "DRW " ++ renderReg x ++ ", " ++ renderReg y ++ ", " ++ hex2 (BitVec.ofNat 8 n.val)
  | .addI x => "ADD I, " ++ renderReg x
  | .unrecognized w => "UNRECOGNIZED " ++ hex4 w

/-- The trace line of a word, `XXXX => <mnemonic>` (R101). -/
def traceLine (w : Word) : String := hex4 w ++ " => " ++ render (decode w)

/-- The trace view of words, decoded without executing them (40_fetch_execute.md R135). -/
def traceView (ws : List Word) : List String := ws.map traceLine

end Sys2Proof.Machine
end

