-- ==== Sys2Proof/Machine/HostOps.lean ====
section
/-! DEFINITION. The host's operations beside `step` (40_fetch_execute.md R120): `load`, the value a step returns, and
`run`. -/

namespace Sys2Proof.Machine

/-- What `load` answers (R121, R123). -/
inductive LoadResult where
  /-- `Ok`, with the machine's state after the load. -/
  | ok (s : State)
  /-- `ProgramTooLarge`: no state changes. -/
  | programTooLarge
  /-- The load has no meaning. -/
  | refused (r : Refusal)
  deriving DecidableEq, Repr

/-- `load(p)` (R121 to R123): on a freshly reset machine only, at most 0xDFF bytes, copied from 0x200. A machine is
freshly reset when it is in the reset state, which no load and no step leaves it in (log 4). -/
def load (p : List Byte) (s : State) : LoadResult :=
  if s = State.reset then
    if h : p.length ≤ Config.maxProgram then
      .ok { s with mem := s.mem.writeBytes Config.loadAddress p, progLen := ⟨p.length, Nat.lt_succ_of_le h⟩, loaded := true }
    else .programTooLarge
  else .refused .loadNotFresh

/-- What a step returns to the host (R120, R126). -/
inductive StepResult where
  /-- The word and the instruction executed. -/
  | executed (w : Word) (i : Instr)
  | noMoreInstructions
  | fatal (r : HaltReason)
  | halted (r : HaltReason)
  deriving DecidableEq, Repr

/-- The value a step around `execute` returns from a state (R127); none only where the step answers no next state. The
state it leaves is that of `cycle` (log 27). -/
def returned (l : Config.FetchLimit) (execute : Instr → State → Host.Outcome State Fault Refusal) (s : State) :
    Option StepResult :=
  match s.status with
  | .halted r => some (.halted r)
  | .running =>
    match fetchWord l s, cycle l execute s with
    | .ok none, .next _ => some .noMoreInstructions
    | .ok (some w), .next t =>
      match t.status with
      | .running => some (.executed w (decode w))
      | .halted r => some (.fatal r)
    | _, _ => none

/-- The value `step(r)` returns under given parameters. -/
def stepResultUnder (p : Config.Params) (r : Byte) (s : State) : Option StepResult :=
  returned p.fetchLimit (execUnder p.drawEdge r) s

/-- The value `step` returns on this hardware. -/
def stepResult (s : State) : Option StepResult := returned Config.fetchLimit exec s

/-- What a run gives the host (R130). -/
structure RunResult where
  /-- The state when the run ended, or when the polls ran out. -/
  state : State
  /-- The physical buffers presented, oldest first (R132, R229). -/
  presented : List PhysicalBuffer
  /-- The trace: each executed word and instruction, oldest first (R135). -/
  trace : List (Word × Instr)
  /-- The halt reason the run returns; none while it is still running when the polls run out. -/
  ended : Option HaltReason
  deriving DecidableEq, Repr

/-- The run's trace as the host prints it, the trace line of each executed word (R135, 30_encoding.md R101). -/
def RunResult.traceLines (r : RunResult) : List String := traceView (r.trace.map (·.1))

/-- The halt reason a status records. -/
def Status.reason : Status → Option HaltReason
  | .running => none
  | .halted r => some r

/-- `run(cont, present)` (R130, R131) under given parameters and `RNG`, after the steps of a history, the host's answers
to its polls given as a list: one poll before each step; false halts with HostStop; after each executed step the physical
view of the framebuffer that step left is presented (R229; decision D14). Log 19. -/
def runUnder (p : Config.Params) (rng : Rng) : List State → List Bool → State → Host.Outcome RunResult Fault Refusal
  | _, [], s => .next ⟨s, [], [], s.status.reason⟩
  | past, cont :: polls, s =>
    match s.status with
    | .halted r => .next ⟨s, [], [], some r⟩
    | .running =>
      if cont then
        match stepUnder p (rng past s) s with
        | .fault f => .fault f
        | .refused r => .refused r
        | .next t =>
          match stepResultUnder p (rng past s) s with
          | some (.executed w i) =>
            match runUnder p rng (s :: past) polls t with
            | .next rest => .next { rest with presented := t.fb.view :: rest.presented, trace := (w, i) :: rest.trace }
            | .fault f => .fault f
            | .refused r => .refused r
          | _ => .next ⟨t, [], [], t.status.reason⟩
      else .next ⟨s.halt .hostStop, [], [], some .hostStop⟩

/-- `run(cont, present)` (R130) on this hardware. -/
def run (polls : List Bool) (s : State) : Host.Outcome RunResult Fault Refusal :=
  runUnder Config.hardware freeRng [] polls s

end Sys2Proof.Machine
end

