-- ==== Sys2Proof/Safety.lean ====
section
/-! DEFINITION. What counts as a safe run (60_exceptions.md R263), the invariant a step keeps, and the other terms the
claims use. -/

namespace Sys2Proof.Machine

/-- A fatal reason is recorded: never the state of a correct run (R263). -/
def State.faulted (s : State) : Prop := ∃ r : HaltReason, s.status = .halted r ∧ r.isFatal = true

/-- A normal end is recorded: HostStop or NoMoreInstructions (R263, R134). -/
def State.endedNormally (s : State) : Prop := s.status = .halted .hostStop ∨ s.status = .halted .noMoreInstructions

/-- `k` steps run safely: they all answer a next state, and the last has no fatal reason recorded. Since a recorded
reason is never cleared (R128), no earlier state had one. -/
def RunsSafely (k : Nat) (s : State) : Prop :=
  ∃ t : State, Host.Core.run Sys2Proof.core k s = .next t ∧ ¬ t.faulted

/-- The invariant of a run (10_state.md R27, R30; 20_memory.md R52): PC is at most 0x1002, every stack entry in use is at
most 0x1000, and memory is in its canonical form. -/
structure State.Inv (s : State) : Prop where
  pcBound : s.pc.toNat ≤ 0x1002
  stackBound : ∀ j : Fin 16, j.val < s.sp.val → s.stack[j.val].toNat ≤ 0x1000
  memWf : s.mem.wf = true

/-- The machine runs and the word at PC is `w`: both bytes lie in memory, the byte at PC holding bits 15:8 (20_memory.md
R55, 40_fetch_execute.md R124). -/
structure State.Fetching (s : State) (w : Word) : Prop where
  running : s.status = .running
  inMemory : s.pc.toNat + 2 ≤ 0x1000
  bytes : w.toNat = (s.mem.read s.pc.toNat).toNat * 256 + (s.mem.read (s.pc.toNat + 1)).toNat

/-- The general registers an instruction may write (10_state.md R22). -/
def writesV : Instr → List Reg
  | .ldImm x _ => [x]
  | .addImm x _ => [x]
  | .addReg x _ => [x, VF]
  | .rnd x _ => [x]
  | .drw _ _ _ => [VF]
  | .sys | .ret | .jp _ | .call _ | .seImm _ _ | .sneImm _ _ | .seReg _ _ | .sneReg _ _ | .ldI _ | .addI _
  | .unrecognized _ => []

/-- The instructions that set PC themselves or may add 2 to it; every other one leaves it advanced (10_state.md R25). -/
def setsPc : Instr → Bool
  | .ret | .jp _ | .call _ | .seImm _ _ | .sneImm _ _ | .seReg _ _ | .sneReg _ _ => true
  | .sys | .ldImm _ _ | .addImm _ _ | .addReg _ _ | .ldI _ | .rnd _ _ | .drw _ _ _ | .addI _ | .unrecognized _ => false

/-- A set bit of the sprite `DRW Vx, Vy, n` reads has its pixel at unbounded coordinates (px, py) (45_draw.md R224, R230):
bit 7 − dx of the byte at I + dy is the pixel at column V[x] + dx, row V[y] + dy. -/
def State.spritePixel (s : State) (x y : Reg) (n : Nib) (px py : Nat) : Prop :=
  ∃ dy dx : Nat, dy < n.val ∧ dx < 8 ∧ (s.mem.read (s.i.toNat + dy)).getLsbD (7 - dx) = true ∧
    px = (s.readV x).toNat + dx ∧ py = (s.readV y).toNat + dy

/-- The cell (tx, ty) is a target of the sprite under `Wrap` (R225): some set bit's pixel falls on it modulo 64 and 32. -/
def State.wrapCell (s : State) (x y : Reg) (n : Nib) (tx : Fin 64) (ty : Fin 32) : Prop :=
  ∃ px py : Nat, s.spritePixel x y n px py ∧ px % 64 = tx.val ∧ py % 32 = ty.val

end Sys2Proof.Machine
end

