-- ==== Sys2Proof/Certificates/Slice0/Obligations.lean ====
section
/-! DEFINITION. The statements for the provers, one per entry of OBLIGATIONS.json, from the numbered rules of spec/. -/

open Sys2Proof Sys2Proof.Machine

/-- Decoding the encoding of any well-formed instruction gives it back. States R93. Which values are well-formed is
R92 (decision D4, log 17). -/
def Obligations.DecodeEncodeRoundTrip : Prop :=
  ∀ i : Instr, i.wf = true → decode (encode i) = i

/-- Encoding what a word decodes to gives the word back, except in the SYS group, where it gives 0x0000. Derived from
30_encoding.md R94, 30_encoding.md R80, 92_eei_decisions.md D3. That SYS encodes as 0x0000 is the spec's decision D3
(log 7). -/
def Obligations.EncodeDecodeExceptSysGroup : Prop :=
  ∀ w : Word, encode (decode w) = if w.toNat < 0x1000 ∧ w ≠ 0x00EE then 0x0000 else w

/-- decode never produces an ill-formed value, and an unrecognized value is well-formed exactly when decode gives it.
Derived from 30_encoding.md R92, 30_encoding.md R77, 92_eei_decisions.md D4. That the other values are refused is the
spec's decision D4 (log 17). -/
def Obligations.DecodeYieldsWellFormed : Prop :=
  (∀ w : Word, (decode w).wf = true) ∧
  (∀ w : Word, (Instr.unrecognized w).wf = true ↔ decode w = .unrecognized w) ∧
  (∀ w : Word, mkUnrecognized w = if decode w = .unrecognized w then some (.unrecognized w) else none)

/-- The words that decode to unrecognized are exactly those R95 lists, and each carries the original word. Derived
from 30_encoding.md R95, 30_encoding.md R96, 30_encoding.md R84, 30_encoding.md R86, 30_encoding.md R88,
30_encoding.md R89. The patterns of eleven variants are the spec's own supply (G1, log 8). -/
def Obligations.UnrecognizedWordsAreTheListedOnes : Prop :=
  ∀ w u : Word, decode w = .unrecognized u ↔
    u = w ∧ ((w.toNat / 0x1000 = 0x5 ∧ w.toNat % 0x10 ≠ 0x0) ∨ (w.toNat / 0x1000 = 0x8 ∧ w.toNat % 0x10 ≠ 0x4) ∨
      (w.toNat / 0x1000 = 0x9 ∧ w.toNat % 0x10 ≠ 0x0) ∨ w.toNat / 0x1000 = 0xB ∨ w.toNat / 0x1000 = 0xE ∨
      (w.toNat / 0x1000 = 0xF ∧ w.toNat % 0x100 ≠ 0x1E))

/-- encode gives the words of R91's table, as arithmetic on the operands. Derived from 30_encoding.md R91. The word of
SYS is decision D3 (log 7), the patterns the source does not give are G1 (log 8). -/
def Obligations.EncodeArithmetic : Prop :=
  (encode .sys = 0x0000 ∧ encode .ret = 0x00EE ∧ ∀ w, encode (.unrecognized w) = w) ∧
  (∀ a : Addr, (encode (.jp a)).toNat = 0x1000 + a.toNat ∧ (encode (.call a)).toNat = 0x2000 + a.toNat ∧
    (encode (.ldI a)).toNat = 0xA000 + a.toNat) ∧
  (∀ (x : Reg) (k : Byte), (encode (.seImm x k)).toNat = 0x3000 + x.val * 0x100 + k.toNat ∧
    (encode (.sneImm x k)).toNat = 0x4000 + x.val * 0x100 + k.toNat ∧
    (encode (.ldImm x k)).toNat = 0x6000 + x.val * 0x100 + k.toNat ∧
    (encode (.addImm x k)).toNat = 0x7000 + x.val * 0x100 + k.toNat ∧
    (encode (.rnd x k)).toNat = 0xC000 + x.val * 0x100 + k.toNat) ∧
  (∀ x y : Reg, (encode (.seReg x y)).toNat = 0x5000 + x.val * 0x100 + y.val * 0x10 ∧
    (encode (.sneReg x y)).toNat = 0x9000 + x.val * 0x100 + y.val * 0x10 ∧
    (encode (.addReg x y)).toNat = 0x8004 + x.val * 0x100 + y.val * 0x10) ∧
  (∀ (x y : Reg) (n : Nib), (encode (.drw x y n)).toNat = 0xD000 + x.val * 0x100 + y.val * 0x10 + n.val) ∧
  (∀ x : Reg, (encode (.addI x)).toNat = 0xF01E + x.val * 0x100)

/-- The word 0x00EE, and only it, decodes to RET. States R79. -/
def Obligations.OnlyRetWordDecodesToRet : Prop :=
  ∀ w : Word, decode w = .ret ↔ w = 0x00EE

/-- Words written out from the spec's encodings decode to the instructions they stand for. Derived from
95_test_vectors.md S2, 95_test_vectors.md S6, 95_test_vectors.md DEC-3, DEC-16, DEC-27. The words 0x8DE4 and 0xF51E
rest on the spec's own supply G1 (log 8); 0x00E0 on decision D2 (log 7). -/
def Obligations.SourceVectorsDecode : Prop :=
  decode 0x00EE = .ret ∧ decode 0x1234 = .jp 0x234 ∧ decode 0x6D12 = .ldImm 0xD 0x12 ∧
  decode 0xD123 = .drw 0x1 0x2 0x3 ∧ decode 0x8DE4 = .addReg 0xD 0xE ∧ decode 0x00E0 = .sys ∧
  decode 0xF51E = .addI 0x5 ∧ decode 0x8120 = .unrecognized 0x8120

/-- A word decodes to the variant of the table row that covers it, and no two rows but SYS and RET overlap. Derived
from 30_encoding.md R78, opcode_table.json. The patterns of eleven rows are the spec's own supply (G1, log 8). -/
def Obligations.DecodeFollowsOpcodeTable : Prop :=
  (∀ w : Word, ∀ r ∈ opcodeRows, r.covers w = true →
    (decode w).mnemonic = r.mnemonic ∨ (r.mnemonic = "SYS" ∧ w = 0x00EE)) ∧
  (∀ w : Word, modelledWord w = false → (decode w).mnemonic = "UNRECOGNIZED") ∧
  (∀ w : Word, ∀ r ∈ opcodeRows, ∀ q ∈ opcodeRows, r.covers w = true → q.covers w = true → r ≠ q →
    w = 0x00EE ∧ (r.mnemonic = "SYS" ∧ q.mnemonic = "RET" ∨ r.mnemonic = "RET" ∧ q.mnemonic = "SYS"))

/-- Building an address operand from a value above 0xFFF fails with AddressTooLarge and never truncates. States R74.
-/
def Obligations.AddressConstructorFailsFast : Prop :=
  ∀ v : Nat, (v ≤ 0xFFF → ∃ a : Addr, mkAddr v = .ok a ∧ a.toNat = v) ∧
    (0xFFF < v → mkAddr v = .error .addressTooLarge)

/-- Building a Reg, Nib, Byte or Word operand out of its range fails with ValueTooLarge and never truncates. Derived
from 30_encoding.md R75, 92_eei_decisions.md D5. This policy for operands other than addresses is the spec's decision
D5 (log 17). -/
def Obligations.BoundedConstructorsFailFast : Prop :=
  ∀ v : Nat,
    (v ≤ 15 → (∃ x : Reg, mkReg v = .ok x ∧ x.val = v) ∧ ∃ n : Nib, mkNib v = .ok n ∧ n.val = v) ∧
    (15 < v → mkReg v = .error .valueTooLarge ∧ mkNib v = .error .valueTooLarge) ∧
    (v ≤ 255 → ∃ b : Byte, mkByte v = .ok b ∧ b.toNat = v) ∧ (255 < v → mkByte v = .error .valueTooLarge) ∧
    (v ≤ 0xFFFF → ∃ w : Word, mkWord v = .ok w ∧ w.toNat = v) ∧ (0xFFFF < v → mkWord v = .error .valueTooLarge)

/-- The trace line of a word starts with its four hexadecimal digits and the arrow, so it identifies the word. Derived
from 30_encoding.md R101, 30_encoding.md R100, 95_test_vectors.md S4. Upper-case digits and the spellings the source
does not show are decisions D15 and D20 (log 18). -/
def Obligations.TraceLineIdentifiesWord : Prop :=
  (∀ w : Word, ∃ rest : String, traceLine w = hex4 w ++ " => " ++ rest) ∧ (∀ w : Word, (hex4 w).length = 4) ∧
  (∀ w u : Word, traceLine w = traceLine u → w = u) ∧
  traceLine 0xD123 = "D123 => DRW V1, V2, 03" ∧ traceLine 0x1ABC = "1ABC => JP 0ABC"

/-- When the bytes at PC make the word w, a step is exec of what w decodes to, with PC advanced by 2. States R125. -/
def Obligations.StepRunsDecodedInstruction : Prop :=
  ∀ (s : State) (w : Word) (i : Instr), s.Fetching w → decode w = i → step s = exec i { s with pc := s.pc + 2 }

/-- A halted machine's step changes nothing; past FETCH_LIMIT a running machine halts with NoMoreInstructions, PC
kept. Derived from 40_fetch_execute.md R124, 40_fetch_execute.md R128, 40_fetch_execute.md R133, 92_eei_decisions.md
D6, 92_eei_decisions.md D21. FETCH_LIMIT = 0x1000 is decision D6 (log 5); the halted step is decision D21 (log 14). -/
def Obligations.StepWithNothingToRun : Prop :=
  (∀ (s : State) (r : HaltReason), s.status = .halted r → step s = .next s ∧ stepResult s = some (.halted r)) ∧
  (∀ s : State, s.status = .running → 0x1000 < s.pc.toNat + 2 →
    step s = .next { s with status := .halted .noMoreInstructions } ∧ stepResult s = some .noMoreInstructions)

/-- A step that fetched a word returns Executed with the word and its instruction, or Fatal with the recorded reason.
Derived from 40_fetch_execute.md R126, 40_fetch_execute.md R127, 60_exceptions.md R260, 92_eei_decisions.md D1. That
the word is returned too is decision D1 (log 27). -/
def Obligations.StepReturnsExecutedOrFatal : Prop :=
  ∀ (s : State) (w : Word), s.Fetching w → ∃ t : State, step s = .next t ∧
    (t.status = .running → stepResult s = some (.executed w (decode w))) ∧
    (∀ r : HaltReason, t.status = .halted r → stepResult s = some (.fatal r))

/-- Every step of every state answers a next state: no step reads a missing address, faults or is refused. Derived
from 30_encoding.md R77, 20_memory.md R54, 60_exceptions.md R260, 40_fetch_execute.md R127. That a fatal condition is
a next state is the model's reading (log 1). -/
def Obligations.EveryStepAnswersNext : Prop :=
  (∀ (i : Instr) (s : State), ∃ t : State, exec i s = .next t) ∧ ∀ s : State, ∃ t : State, step s = .next t

/-- No step writes memory: every byte reads after a step as it did before, and so over any number of steps. Derived
from 20_memory.md R58, 20_memory.md R54, 10_state.md R37. -/
def Obligations.StepKeepsMemory : Prop :=
  (∀ s t : State, step s = .next t →
    t.mem = s.mem ∧ (∀ a : Nat, t.mem.read a = s.mem.read a) ∧ t.progLen = s.progLen ∧ t.loaded = s.loaded) ∧
  (∀ (k : Nat) (s t : State), Host.Core.run Sys2Proof.core k s = .next t → ∀ a : Nat, t.mem.read a = s.mem.read a)

/-- Every step keeps: PC at most 0x1002, every stack entry in use at most 0x1000, memory in canonical form. Derived
from 10_state.md R27, 10_state.md R25, 41_control.md R151, 41_control.md R153, 42_skip.md R174, 20_memory.md R50. PC
may leave memory by 2 only because FETCH_LIMIT is 0x1000 (decision D6, log 5). -/
def Obligations.StepKeepsInvariant : Prop :=
  ∀ s t : State, s.Inv → step s = .next t → t.Inv

/-- The reset state has the invariant of StepKeepsInvariant. Derived from 10_state.md R39, 10_state.md R27. The zeros
of the reset state are decision D11 (log 2). -/
def Obligations.ResetHasInvariant : Prop :=
  State.reset.Inv

/-- A machine just loaded has the invariant of StepKeepsInvariant, so every state of a run has it. Derived from
20_memory.md R52, 40_fetch_execute.md R121, 10_state.md R27. The zeros of the reset state are decision D11 (log 2). -/
def Obligations.LoadedMachineHasInvariant : Prop :=
  ∀ (p : List Byte) (s : State), load p State.reset = .ok s →
    s.Inv ∧ ∀ (k : Nat) (t : State), Host.Core.run Sys2Proof.core k s = .next t → t.Inv

/-- A halted machine stays as it is over any number of steps. Derived from 40_fetch_execute.md R128,
40_fetch_execute.md R133, 10_state.md R32, 92_eei_decisions.md D21. That the step changes nothing else either is
decision D21 (log 14). -/
def Obligations.HaltedForEver : Prop :=
  ∀ (k : Nat) (s : State) (r : HaltReason), s.status = .halted r → Host.Core.run Sys2Proof.core k s = .next s

/-- A running machine's step halts exactly for the causes of R261, each with its own reason, and else keeps running.
Derived from 40_fetch_execute.md R133, 60_exceptions.md R261, 60_exceptions.md R264, 92_eei_decisions.md D7, D9, D16.
StackOverflow and SpriteOutOfRange are decisions D7 and D9 (logs 9, 10); DrawOutOfBounds never arises under DRAW_EDGE
= Wrap (D8, log 6). -/
def Obligations.StatusAfterStep : Prop :=
  ∀ (s t : State) (w : Word), s.Fetching w → step s = .next t →
    (t.status = .halted .stackUnderflow ↔ decode w = .ret ∧ s.sp = 0) ∧
    (t.status = .halted .stackOverflow ↔ (∃ a : Addr, decode w = .call a) ∧ s.sp = 16) ∧
    (∀ u : Word, t.status = .halted (.unrecognizedInstruction u) ↔ decode w = .unrecognized u) ∧
    (t.status = .halted .spriteOutOfRange ↔
      ∃ (x y : Reg) (n : Nib), decode w = .drw x y n ∧ 0 < n.val ∧ 0xFFF < s.i.toNat + n.val - 1) ∧
    t.status ≠ .halted .drawOutOfBounds ∧ t.status ≠ .halted .hostStop ∧ t.status ≠ .halted .noMoreInstructions

/-- A fatal condition writes nothing but the status, and PC keeps the advanced value. Derived from 60_exceptions.md
R262, 60_exceptions.md R260, 60_exceptions.md R264, 92_eei_decisions.md D13. The exact state left is the spec's
decision D13 (log 1). -/
def Obligations.FatalWritesNothingElse : Prop :=
  ∀ (s t : State) (w : Word) (r : HaltReason), s.Fetching w → step s = .next t → t.status = .halted r →
    r.isFatal = true ∧ t = { s with pc := s.pc + 2, status := .halted r }

/-- A run that ends with no fatal reason recorded had none recorded at any earlier step. Derived from 60_exceptions.md
R263, 40_fetch_execute.md R128. -/
def Obligations.SafeRunsStaySafe : Prop :=
  ∀ (j k : Nat) (s : State), j ≤ k → RunsSafely k s → RunsSafely j s

/-- SYS changes no state; every word 0x0000 to 0x0FFF but 0x00EE is SYS. Derived from 41_control.md R150,
30_encoding.md R80, 92_eei_decisions.md D2. That every such word is SYS is the spec's decision D2 (log 7). -/
def Obligations.SysChangesNothing : Prop :=
  (∀ w : Word, w.toNat < 0x1000 → w ≠ 0x00EE → decode w = .sys) ∧
  (∀ s : State, exec .sys s = .next s) ∧
  (∀ (s : State) (w : Word), s.Fetching w → w.toNat < 0x1000 → w ≠ 0x00EE → step s = .next { s with pc := s.pc + 2 })

/-- RET takes PC from the top stack entry and leaves it in place; with SP = 0 it is the fatal StackUnderflow. Derived
from 41_control.md R151, 10_state.md R30, 60_exceptions.md R262. The state the fatal condition leaves is decision D13
(log 1). -/
def Obligations.RetPopsOrUnderflows : Prop :=
  (∀ (s : State) (j : Fin 16), s.sp = j.succ →
    exec .ret s = .next { s with sp := j.castSucc, pc := s.stack[j.val] }) ∧
  (∀ s : State, s.sp = 0 → exec .ret s = .next { s with status := .halted .stackUnderflow })

/-- JP addr: the word 0x1nnn sets PC to nnn and changes nothing else; a jump to itself loops for ever. Derived from
41_control.md R152, 40_fetch_execute.md R124, 92_eei_decisions.md D6. The last clause holds under FETCH_LIMIT =
0x1000, a choice (decision D6; log 5, DESIGN CHOICE). -/
def Obligations.JpSetsPc : Prop :=
  ∀ a : Addr,
    (∀ w : Word, w.toNat = 0x1000 + a.toNat → decode w = .jp a) ∧
    (∀ s : State, exec (.jp a) s = .next { s with pc := a.setWidth 16 }) ∧
    (∀ (s : State) (w : Word), s.Fetching w → w.toNat = 0x1000 + a.toNat → s.pc = a.setWidth 16 →
      ∀ k : Nat, Host.Core.run Sys2Proof.core k s = .next s) ∧
    (a = 0xFFF → ∀ s t : State, s.status = .running → exec (.jp a) s = .next t →
      step t = .next { t with status := .halted .noMoreInstructions })

/-- CALL addr pushes the advanced PC and jumps; with SP = 16 it is the fatal StackOverflow. Derived from 41_control.md
R153, 10_state.md R30, 90_conflicts.md C11, 92_eei_decisions.md D7, 30_encoding.md R82. StackOverflow is the spec's
decision D7 (log 9); the top nibble 2 is its own supply (G1, log 8). -/
def Obligations.CallPushesOrOverflows : Prop :=
  ∀ a : Addr,
    (∀ w : Word, w.toNat = 0x2000 + a.toNat → decode w = .call a) ∧
    (∀ (s : State) (j : Fin 16), s.sp = j.castSucc →
      exec (.call a) s = .next { s with stack := s.stack.set j.val s.pc, sp := j.succ, pc := a.setWidth 16 }) ∧
    (∀ s : State, s.sp = 16 → exec (.call a) s = .next { s with status := .halted .stackOverflow })

/-- After CALL at A and RET with no net stack change between, PC is A + 2 and SP is its value before the CALL. Derived
from 41_control.md R154, 41_control.md R151, 41_control.md R153. -/
def Obligations.CallThenRetComesBack : Prop :=
  ∀ (s : State) (w : Word) (a : Addr) (j : Fin 16), s.Fetching w → decode w = .call a → s.sp = j.castSucc →
    ∃ t : State, step s = .next t ∧ t.pc = a.setWidth 16 ∧ t.status = .running ∧
      ∀ u : State, u.Fetching 0x00EE → u.sp = t.sp → u.stack[j.val] = t.stack[j.val] →
        ∃ v : State, step u = .next v ∧ v.pc = s.pc + 2 ∧ v.sp = s.sp ∧ v.status = .running

/-- SE Vx, byte and SNE Vx, byte add 2 to PC when V[x] = k, respectively V[x] ≠ k, and change nothing else. States
R170, R171. The top nibbles 3 and 4 are the spec's own supply (G1, log 8). -/
def Obligations.SkipsOnImmediate : Prop :=
  ∀ (x : Reg) (k : Byte),
    (∀ w : Word, w.toNat = 0x3000 + x.val * 0x100 + k.toNat → decode w = .seImm x k) ∧
    (∀ w : Word, w.toNat = 0x4000 + x.val * 0x100 + k.toNat → decode w = .sneImm x k) ∧
    (∀ s : State, exec (.seImm x k) s = .next (if s.readV x = k then { s with pc := s.pc + 2 } else s)) ∧
    (∀ s : State, exec (.sneImm x k) s = .next (if s.readV x ≠ k then { s with pc := s.pc + 2 } else s))

/-- SE Vx, Vy and SNE Vx, Vy add 2 to PC when V[x] = V[y], respectively V[x] ≠ V[y], and change nothing else. States
R172, R173. The top nibbles 5 and 9 are the spec's own supply (G1, log 8). -/
def Obligations.SkipsOnRegister : Prop :=
  (∀ (x y : Reg) (w : Word), w.toNat = 0x5000 + x.val * 0x100 + y.val * 0x10 → decode w = .seReg x y) ∧
  (∀ (x y : Reg) (w : Word), w.toNat = 0x9000 + x.val * 0x100 + y.val * 0x10 → decode w = .sneReg x y) ∧
  (∀ w : Word, w.toNat / 0x1000 = 0x5 ∨ w.toNat / 0x1000 = 0x9 → w.toNat % 0x10 ≠ 0 → decode w = .unrecognized w) ∧
  (∀ (x y : Reg) (s : State),
    exec (.seReg x y) s = .next (if s.readV x = s.readV y then { s with pc := s.pc + 2 } else s) ∧
    exec (.sneReg x y) s = .next (if s.readV x ≠ s.readV y then { s with pc := s.pc + 2 } else s)) ∧
  (∀ (x : Reg) (s : State), exec (.seReg x x) s = .next { s with pc := s.pc + 2 } ∧ exec (.sneReg x x) s = .next s)

/-- A taken skip steps over the next word whatever it is; at 0xFFE it sets PC to 0x1002 and the run ends there.
Derived from 42_skip.md R174, 40_fetch_execute.md R124. The end of the run at 0x1002 holds under FETCH_LIMIT = 0x1000
(decision D6, log 5). -/
def Obligations.TakenSkipIgnoresSkippedWord : Prop :=
  ∀ (s : State) (w : Word), s.Fetching w →
    ((∃ x k, decode w = .seImm x k ∧ s.readV x = k) ∨ (∃ x k, decode w = .sneImm x k ∧ s.readV x ≠ k) ∨
      (∃ x y, decode w = .seReg x y ∧ s.readV x = s.readV y) ∨ ∃ x y, decode w = .sneReg x y ∧ s.readV x ≠ s.readV y) →
    step s = .next { s with pc := s.pc + 4 } ∧
    (s.pc = 0xFFE → step { s with pc := s.pc + 4 } =
      .next { s with pc := 0x1002, status := .halted .noMoreInstructions })

/-- LD Vx, byte: the word 0x6xkk writes k to V[x] and changes nothing else. States R190. -/
def Obligations.LdImmLoadsByte : Prop :=
  ∀ (x : Reg) (k : Byte),
    (∀ w : Word, w.toNat = 0x6000 + x.val * 0x100 + k.toNat → decode w = .ldImm x k) ∧
    (∀ s : State, ∃ t : State, exec (.ldImm x k) s = .next t ∧ t = { s with v := s.v.set x.val k } ∧
      t.readV x = k ∧ ∀ y : Reg, y ≠ x → t.readV y = s.readV y)

/-- ADD Vx, byte: the word 0x7xkk adds k to V[x] modulo 256, sets no flag and changes nothing else. States R192. The
top nibble 7 is the spec's own supply (G1, log 8). -/
def Obligations.AddImmWrapsWithoutFlag : Prop :=
  ∀ (x : Reg) (k : Byte),
    (∀ w : Word, w.toNat = 0x7000 + x.val * 0x100 + k.toNat → decode w = .addImm x k) ∧
    (∀ s : State, ∃ t : State, exec (.addImm x k) s = .next t ∧ t = { s with v := s.v.set x.val (t.readV x) } ∧
      (t.readV x).toNat = ((s.readV x).toNat + k.toNat) % 256 ∧ (x ≠ VF → t.readV VF = s.readV VF)) ∧
    (∀ s : State, exec (.addImm x 0) s = .next s)

/-- ADD Vx, Vy writes the sum modulo 256 to V[x], then the carry to VF, and changes nothing else. Derived from
43_register.md R194, 43_register.md R193, 10_state.md R24, 30_encoding.md R86. The order for x = 0xF is derived by the
spec (R194) and decision D17 (log 12); the pattern 8xy4 is its own supply (G1, log 8). -/
def Obligations.AddRegWritesSumThenCarry : Prop :=
  (∀ (x y : Reg) (w : Word), w.toNat = 0x8004 + x.val * 0x100 + y.val * 0x10 → decode w = .addReg x y) ∧
  (∀ w : Word, w.toNat / 0x1000 = 0x8 → w.toNat % 0x10 ≠ 4 → decode w = .unrecognized w) ∧
  (∀ (x y : Reg) (s : State), ∃ t : State, exec (.addReg x y) s = .next t ∧
    t = { s with v := (s.v.set x.val (t.readV x)).set VF.val (t.readV VF) } ∧
    (t.readV VF = if 256 ≤ (s.readV x).toNat + (s.readV y).toNat then 1 else 0) ∧
    (x ≠ VF → (t.readV x).toNat = ((s.readV x).toNat + (s.readV y).toNat) % 256))

/-- LD I, addr: the word 0xAnnn sets I to nnn, zero-extended, and changes nothing else. States R210. The top nibble A
is the spec's own supply (G1, log 8). -/
def Obligations.LdISetsIndex : Prop :=
  ∀ a : Addr,
    (∀ w : Word, w.toNat = 0xA000 + a.toNat → decode w = .ldI a) ∧
    (∀ s : State, ∃ t : State, exec (.ldI a) s = .next t ∧ t = { s with i := t.i } ∧ t.i.toNat = a.toNat)

/-- ADD I, Vx adds V[x] to I modulo 65536, sets no flag and changes nothing else. Derived from 44_index.md R212,
44_index.md R211, 92_eei_decisions.md D10, 30_encoding.md R88. The width and the absence of a flag are the spec's
decision D10 (log 11); the pattern Fx1E is its own supply (G1, log 8). -/
def Obligations.AddIWrapsWithoutFlag : Prop :=
  (∀ (x : Reg) (w : Word), w.toNat = 0xF01E + x.val * 0x100 → decode w = .addI x) ∧
  (∀ w : Word, w.toNat / 0x1000 = 0xF → w.toNat % 0x100 ≠ 0x1E → decode w = .unrecognized w) ∧
  (∀ (x : Reg) (s : State), ∃ t : State, exec (.addI x) s = .next t ∧ t = { s with i := t.i } ∧
    t.i.toNat = (s.i.toNat + (s.readV x).toNat) % 65536)

/-- RND Vx, byte writes the drawn byte AND k to V[x], whatever byte is drawn, and changes no other register. Derived
from 43_register.md R195, 10_state.md R36, 92_eei_decisions.md D12. The byte is a free value (decision D12, log 3);
nothing here rests on its value. The top nibble C is the spec's own supply (G1, log 8). -/
def Obligations.RndMasksDrawnByte : Prop :=
  ∀ (x : Reg) (k : Byte),
    (∀ w : Word, w.toNat = 0xC000 + x.val * 0x100 + k.toNat → decode w = .rnd x k) ∧
    (∀ s : State, ∃ (r : Byte) (t : State), exec (.rnd x k) s = .next t ∧ r = Config.rngByte s.rngDraws ∧
      t = { s with v := s.v.set x.val (r &&& k), rngDraws := s.rngDraws + 1 } ∧
      (∀ j : Nat, k.getLsbD j = false → (t.readV x).getLsbD j = false) ∧ (k = 0xFF → t.readV x = r)) ∧
    (∀ (s : State) (r : Byte), rndWith r x k s = { s with v := s.v.set x.val (r &&& k) })

/-- DRW flips exactly the cells its set sprite bits fall on, sets VF to the collision flag last, and changes nothing
else. Derived from 45_draw.md R230, 45_draw.md R224, 45_draw.md R225, 45_draw.md R227, 45_draw.md R232, 30_encoding.md
R87, 92_eei_decisions.md D8, D23. Wrapping at the edge is the parameter DRAW_EDGE = Wrap (decision D8, log 6); the
order of the work is decision D23 (log 15). -/
def Obligations.DrwXorsSprite : Prop :=
  (∀ (x y : Reg) (n : Nib) (w : Word), w.toNat = 0xD000 + x.val * 0x100 + y.val * 0x10 + n.val → decode w = .drw x y n) ∧
  (∀ (x y : Reg) (n : Nib) (s : State), n.val = 0 ∨ s.i.toNat + n.val - 1 ≤ 0xFFF →
    ∃ t : State, exec (.drw x y n) s = .next t ∧
      t = { s with fb := t.fb, v := s.v.set VF.val (t.readV VF) } ∧
      (∀ (tx : Fin 64) (ty : Fin 32),
        t.fb.get tx ty = true ↔ ¬ (s.fb.get tx ty = true ↔ s.wrapCell x y n tx ty)) ∧
      ((∃ tx ty, s.fb.get tx ty = true ∧ s.wrapCell x y n tx ty) → t.readV VF = 1) ∧
      ((¬ ∃ tx ty, s.fb.get tx ty = true ∧ s.wrapCell x y n tx ty) → t.readV VF = 0))

/-- DRW whose sprite reaches past 0xFFF is the fatal SpriteOutOfRange, with no pixel and no register changed. Derived
from 45_draw.md R231, 60_exceptions.md R262, 92_eei_decisions.md D9. SpriteOutOfRange is the spec's decision D9 (log
10). -/
def Obligations.DrwPastMemoryIsFatal : Prop :=
  ∀ (x y : Reg) (n : Nib) (s : State), 0 < n.val → 0xFFF < s.i.toNat + n.val - 1 →
    exec (.drw x y n) s = .next { s with status := .halted .spriteOutOfRange } ∧
    ∀ e : Config.DrawEdge, drwUnder e x y n s = .next { s with status := .halted .spriteOutOfRange }

/-- Drawing a sprite twice at one place restores the framebuffer, and the second flag tells whether the first draw set
a pixel. Derived from 45_draw.md R233, 45_draw.md R227, 90_conflicts.md C4. Under DRAW_EDGE = Wrap (decision D8, log
6). -/
def Obligations.DoubleDrawRestores : Prop :=
  ∀ (x y : Reg) (n : Nib) (s t : State), n.val = 0 ∨ s.i.toNat + n.val - 1 ≤ 0xFFF →
    exec (.drw x y n) s = .next t → t.readV x = s.readV x → t.readV y = s.readV y →
    ∃ u : State, exec (.drw x y n) t = .next u ∧ u.fb = s.fb ∧
      (u.readV VF = 1 ↔ ∃ tx ty, t.fb.get tx ty = true ∧ s.fb.get tx ty = false) ∧
      (u.readV VF = 1 ∨ u.readV VF = 0)

/-- Under Clip the bits outside 64 × 32 do nothing; under Fault one of them is the fatal DrawOutOfBounds, else the
draw is as under Clip. Derived from 45_draw.md R225, 45_draw.md R230, 60_exceptions.md R264, 92_eei_decisions.md D8.
These are the values of the parameter DRAW_EDGE this hardware does not take (decision D8, log 6). -/
def Obligations.EdgePoliciesClipAndFault : Prop :=
  ∀ (x y : Reg) (n : Nib) (s : State), n.val = 0 ∨ s.i.toNat + n.val - 1 ≤ 0xFFF →
    (∃ t : State, drwUnder .clip x y n s = .next t ∧ t = { s with fb := t.fb, v := s.v.set VF.val (t.readV VF) } ∧
      (∀ (tx : Fin 64) (ty : Fin 32),
        t.fb.get tx ty = true ↔ ¬ (s.fb.get tx ty = true ↔ s.spritePixel x y n tx.val ty.val)) ∧
      ((∃ (tx : Fin 64) (ty : Fin 32), s.fb.get tx ty = true ∧ s.spritePixel x y n tx.val ty.val) → t.readV VF = 1) ∧
      ((¬ ∃ (tx : Fin 64) (ty : Fin 32), s.fb.get tx ty = true ∧ s.spritePixel x y n tx.val ty.val) →
        t.readV VF = 0)) ∧
    ((∃ px py, s.spritePixel x y n px py ∧ (64 ≤ px ∨ 32 ≤ py)) →
      drwUnder .fault x y n s = .next { s with status := .halted .drawOutOfBounds }) ∧
    ((¬ ∃ px py, s.spritePixel x y n px py ∧ (64 ≤ px ∨ 32 ≤ py)) → drwUnder .fault x y n s = drwUnder .clip x y n s)

/-- Executing an unrecognized word is always the fatal condition that records the word, and changes nothing else.
Derived from 46_unrecognized.md R250, 46_unrecognized.md R251, 60_exceptions.md R262. The state left is decision D13
(log 1). -/
def Obligations.UnrecognizedIsFatal : Prop :=
  (∀ (w : Word) (s : State),
    exec (.unrecognized w) s = .next { s with status := .halted (.unrecognizedInstruction w) }) ∧
  (∀ (s : State) (w : Word), s.Fetching w → decode w = .unrecognized w →
    step s = .next { s with pc := s.pc + 2, status := .halted (.unrecognizedInstruction w) })

/-- An instruction changes no general register but those R22 lists for it; VF is a side effect of ADD Vx, Vy and DRW
only. Derived from 10_state.md R22, 10_state.md R23. -/
def Obligations.RegisterFrame : Prop :=
  ∀ (i : Instr) (s t : State), exec i s = .next t →
    (∀ y : Reg, y ∉ writesV i → t.readV y = s.readV y) ∧
    (t.readV VF ≠ s.readV VF → (∃ x y, i = .addReg x y) ∨ (∃ x y n, i = .drw x y n) ∨
      (∃ k, i = .ldImm VF k) ∨ (∃ k, i = .addImm VF k) ∨ ∃ k, i = .rnd VF k)

/-- I changes only by LD I and ADD I, the stack only by CALL, SP only by CALL and RET, FB only by DRW, memory never.
Derived from 10_state.md R28, 10_state.md R29, 10_state.md R30, 10_state.md R34, 20_memory.md R58, 20_memory.md R54,
40_fetch_execute.md R133, 60_exceptions.md R260, 43_register.md R195, 92_eei_decisions.md D12. That a fatal condition
is a next state with that status is the model's reading (log 1, DEDUCED); the draw counter and the record of a load
are the model's own fields (log 3, DESIGN CHOICE; log 4). -/
def Obligations.SpecialStateFrame : Prop :=
  ∀ (i : Instr) (s t : State), exec i s = .next t →
    ((∀ a, i ≠ .ldI a) → (∀ x, i ≠ .addI x) → t.i = s.i) ∧
    (i ≠ .ret → (∀ a, i ≠ .call a) → t.sp = s.sp) ∧
    ((∀ a, i ≠ .call a) → t.stack = s.stack) ∧
    (∀ j : Fin 16, j.val ≠ s.sp.val → t.stack[j.val] = s.stack[j.val]) ∧
    ((∀ x y n, i ≠ .drw x y n) → t.fb = s.fb) ∧
    ((∀ x k, i ≠ .rnd x k) → t.rngDraws = s.rngDraws) ∧
    (∀ a : Nat, t.mem.read a = s.mem.read a) ∧ t.progLen = s.progLen ∧ t.loaded = s.loaded ∧
    (t.status = s.status ∨ ∃ r : HaltReason, t.status = .halted r ∧ r.isFatal = true)

/-- Only JP, CALL, RET and the skips move PC from its advanced value, as R25 says; a fatal CALL or RET leaves it
there, as R262 says. Derived from 10_state.md R25, 10_state.md R30, 41_control.md R151, 41_control.md R153,
60_exceptions.md R262, 92_eei_decisions.md D7, D13. That a fatal CALL or RET keeps the advanced PC is R262 with
decision D13 (log 1), and that CALL with SP = 16 is fatal is decision D7 (log 9, DESIGN CHOICE). -/
def Obligations.PcFrame : Prop :=
  ∀ (i : Instr) (s t : State), exec i s = .next t →
    (setsPc i = false → t.pc = s.pc) ∧
    ((∃ x k, i = .seImm x k ∨ i = .sneImm x k) ∨ (∃ x y, i = .seReg x y ∨ i = .sneReg x y) →
      t.pc = s.pc ∨ t.pc = s.pc + 2) ∧
    (∀ a, i = .jp a → t.pc = a.setWidth 16) ∧
    (∀ a, i = .call a → t.pc = if s.sp.val = 16 then s.pc else a.setWidth 16) ∧
    (i = .ret → t.pc = if s.sp.val = 0 then s.pc else s.stack.getD (s.sp.val - 1) 0)

/-- Every instruction but RND ignores the random source. Derived from 40_fetch_execute.md R127, 43_register.md R195.
The counter is the model's own field (log 3). -/
def Obligations.OnlyRndSeesRandomByte : Prop :=
  ∀ (i : Instr) (s t : State) (n : Nat), (∀ x k, i ≠ .rnd x k) → exec i s = .next t →
    exec i { s with rngDraws := n } = .next { t with rngDraws := n }

/-- xor on a cell: a false bit does nothing and returns false; a true bit flips it and returns true iff it was set.
States R223. -/
def Obligations.XorFlipsOneCell : Prop :=
  ∀ (fb : Framebuffer) (x : Fin 64) (y : Fin 32),
    ((fb.xor x y false).fb = fb ∧ (fb.xor x y false).collided = false) ∧
    ((fb.xor x y true).fb.get x y = (!fb.get x y) ∧ (fb.xor x y true).collided = fb.get x y ∧
      ∀ (x' : Fin 64) (y' : Fin 32), (x', y') ≠ (x, y) → (fb.xor x y true).fb.get x' y' = fb.get x' y')

/-- The physical buffer is a view: pixel (px, py) is FB[px div 10][py div 10], so each 10 × 10 block is uniform.
Derived from 10_state.md R35, 45_draw.md R228, 92_eei_decisions.md D22. That a physical pixel holds the logical cell's
Boolean is the spec's decision D22 (log 22, DESIGN CHOICE). -/
def Obligations.PhysicalBlocksAreUniform : Prop :=
  (∀ (fb : Framebuffer) (px : Fin 640) (py : Fin 320) (x : Fin 64) (y : Fin 32),
    px.val / 10 = x.val → py.val / 10 = y.val → fb.physical px py = fb.get x y) ∧
  (∀ (fb : Framebuffer) (px px' : Fin 640) (py py' : Fin 320),
    px.val / 10 = px'.val / 10 → py.val / 10 = py'.val / 10 → fb.physical px py = fb.physical px' py')

/-- After reset PC is 0x200, the framebuffer blank, the machine running, and registers, stack and memory are zero.
Derived from 10_state.md R39, 70_reset_and_hazards.md R290, 70_reset_and_hazards.md R291, 92_eei_decisions.md D11. The
zeros are the spec's decision D11 (log 2), not the source's. -/
def Obligations.ResetValues : Prop :=
  State.reset.pc = 0x200 ∧ (∀ x y, State.reset.fb.get x y = false) ∧ State.reset.status = .running ∧
  (∀ x : Reg, State.reset.readV x = 0) ∧ State.reset.i = 0 ∧ State.reset.sp = 0 ∧
  (∀ j : Fin 16, State.reset.stack[j.val] = 0) ∧ (∀ a : Nat, State.reset.mem.read a = 0) ∧ State.reset.progLen = 0

/-- load copies the program to 0x200 and up, records its length, and changes nothing else; a longer program changes
nothing. Derived from 20_memory.md R52, 40_fetch_execute.md R121, 90_conflicts.md C5, 92_eei_decisions.md D19. The
zeros are decision D11 (log 2); that a failing load writes nothing is decision D19 (log 4). -/
def Obligations.LoadCopiesProgram : Prop :=
  ∀ p : List Byte,
    (p.length ≤ 0xDFF → ∃ s : State, load p State.reset = .ok s ∧
      (∀ (k : Nat) (h : k < p.length), s.mem.read (0x200 + k) = p[k]) ∧
      (∀ a : Nat, a < 0x200 ∨ 0x200 + p.length ≤ a → s.mem.read a = 0) ∧ s.mem.read 0xFFF = 0 ∧
      s.progLen.val = p.length ∧ s.mem.wf = true ∧
      s = { State.reset with mem := s.mem, progLen := s.progLen, loaded := true }) ∧
    (0xDFF < p.length → load p State.reset = .programTooLarge)

/-- A program of 0xDFF bytes loads, one byte larger fails, and an empty one leaves memory all zero. Derived from
40_fetch_execute.md R122, 40_fetch_execute.md R121, 92_eei_decisions.md D11. That the bytes no load has written are
zero is the spec's decision D11 (log 2, DESIGN CHOICE). -/
def Obligations.LoadBoundary : Prop :=
  (∀ p : List Byte, p.length = 0xFFF - 0x200 → ∃ s : State, load p State.reset = .ok s) ∧
  (∀ p : List Byte, p.length = 0xFFF - 0x200 + 1 → load p State.reset = .programTooLarge) ∧
  (∃ s : State, load [] State.reset = .ok s ∧ ∀ a : Nat, s.mem.read a = 0)

/-- A second load, and a load after a step, are refused. Derived from 40_fetch_execute.md R123, 92_eei_decisions.md
D19. The refusal is decision D19; how the model tells a fresh machine is log 4. -/
def Obligations.LoadOnlyOnceAndFirst : Prop :=
  (∀ (p q : List Byte) (s t : State) (k : Nat), load p State.reset = .ok s →
    Host.Core.run Sys2Proof.core k s = .next t → load q t = .refused .loadNotFresh) ∧
  (∀ (q : List Byte) (t : State) (k : Nat), Host.Core.run Sys2Proof.core (k + 1) State.reset = .next t →
    load q t = .refused .loadNotFresh)

/-- A word placed at PC is the word the next step fetches, and the host's decoder reads it as the step does. Derived
from 20_memory.md R55, 40_fetch_execute.md R124, 30_encoding.md R70. Placing a word is the host's own operation (log
20). -/
def Obligations.PlacedWordIsFetched : Prop :=
  (∀ (s : State) (w : Word), s.status = .running → s.pc.toNat + 2 ≤ 0x1000 → s.mem.wf = true →
    (s.withFetchWord 16 w.toNat).Fetching w ∧ (s.withFetchWord 16 w.toNat).mem.wf = true ∧
    ∀ a : Nat, a ≠ s.pc.toNat → a ≠ s.pc.toNat + 1 → (s.withFetchWord 16 w.toNat).mem.read a = s.mem.read a) ∧
  (∀ w : Word, decodeTableWord 16 w.toNat = some (decode w))

/-- A poll answered false halts a running machine with HostStop before any step; a halted machine's run returns its
reason. Derived from 40_fetch_execute.md R130, 40_fetch_execute.md R131, 60_exceptions.md R261, 92_eei_decisions.md
D14. The list of poll answers is the model's form of the host predicate (log 19). -/
def Obligations.RunHostStopAndHalted : Prop :=
  (∀ (s : State) (polls : List Bool), s.status = .running →
    run (false :: polls) s = .next ⟨{ s with status := .halted .hostStop }, [], [], some .hostStop⟩) ∧
  (∀ (s : State) (polls : List Bool) (r : HaltReason), s.status = .halted r →
    run polls s = .next ⟨s, [], [], some r⟩)

/-- A run the host does not stop takes the steps of the machine, and presents and traces after each executed one and
no other. Derived from 40_fetch_execute.md R130, 40_fetch_execute.md R133, 40_fetch_execute.md R135, 45_draw.md R228,
45_draw.md R229, 92_eei_decisions.md D14. Presenting only after an executed step is decision D14; the list of polls is
the model's (log 19, DESIGN CHOICE). -/
def Obligations.RunFollowsSteps : Prop :=
  ∀ (n : Nat) (s : State), ∃ (t : State) (r : RunResult), Host.Core.run Sys2Proof.core n s = .next t ∧
    run (List.replicate n true) s = .next r ∧ r.state = t ∧ r.ended = t.status.reason ∧
    r.presented.length = r.trace.length ∧ r.trace.length ≤ n ∧
    (∀ (k : Nat) (u : State) (w : Word) (i : Instr), k < n → Host.Core.run Sys2Proof.core k s = .next u →
      stepResult u = some (.executed w i) → k < r.trace.length) ∧
    ∀ (k : Nat) (h : k < r.trace.length), ∃ u u' : State,
      Host.Core.run Sys2Proof.core k s = .next u ∧ Host.Core.run Sys2Proof.core (k + 1) s = .next u' ∧
      stepResult u = some (.executed r.trace[k].1 r.trace[k].2) ∧ u'.status = .running ∧
      r.presented[k]? = some u'.fb.view ∧
      ∀ (px : Fin 640) (py : Fin 320), u'.fb.view.get px py = u'.fb.physical px py

/-- Under FETCH_LIMIT = 0x200 + program length a running machine halts where the program's bytes end, and else steps
as before. Derived from 00_scope.md R9, 40_fetch_execute.md R124, 10_state.md R37, 92_eei_decisions.md D6. This is the
value of the parameter FETCH_LIMIT this hardware does not take (decision D6, log 5). -/
def Obligations.EndOfProgramLimit : Prop :=
  ∀ (p : Config.Params) (r : Byte) (s : State), p.fetchLimit = .endOfProgram →
    (s.status = .running → s.pc.toNat + 2 ≤ 0x200 + s.progLen.val →
      stepUnder p r s = stepUnder { p with fetchLimit := .endOfMemory } r s) ∧
    (s.status = .running → 0x200 + s.progLen.val < s.pc.toNat + 2 →
      stepUnder p r s = .next { s with status := .halted .noMoreInstructions } ∧
      stepResultUnder p r s = some .noMoreInstructions) ∧
    (∀ q : HaltReason, s.status = .halted q → stepUnder p r s = .next s ∧ stepResultUnder p r s = some (.halted q))

/-- exec and step are the parametrized ones at FETCH_LIMIT = 0x1000, DRAW_EDGE = Wrap and the free random byte.
Derived from 00_scope.md R9, 40_fetch_execute.md R127, 92_eei_decisions.md D6, D8, D12. The three values are choices
(decisions D6, D8, D12; logs 5, 6, 3); nothing here rests on the byte's value. -/
def Obligations.StepIsStepAtTheHardwaresParameters : Prop :=
  Config.hardware.fetchLimit = .endOfMemory ∧ Config.hardware.drawEdge = .wrap ∧
  (∀ (i : Instr) (s : State), exec i s = execUnder .wrap (Config.rngByte s.rngDraws) i s) ∧
  (∀ s : State, step s = stepUnder Config.hardware (Config.rngByte s.rngDraws) s) ∧
  (∀ s : State, stepResult s = stepResultUnder Config.hardware (Config.rngByte s.rngDraws) s)

/-- Under any FETCH_LIMIT, DRAW_EDGE and random byte a step answers a next state; only DRW reads the edge policy, only
RND the byte. Derived from 00_scope.md R9, 40_fetch_execute.md R127, 43_register.md R195, 45_draw.md R230,
60_exceptions.md R262, 92_eei_decisions.md D6, D8, D12, D13. The state a fatal draw leaves is decision D13 (log 1);
the draw counter is the model's own field (log 3, DESIGN CHOICE). -/
def Obligations.StepUnderGivenParameters : Prop :=
  ∀ (p : Config.Params) (r : Byte) (s : State), (∃ t : State, stepUnder p r s = .next t) ∧
    ∀ w : Word, s.Fetching w → (p.fetchLimit = .endOfProgram → s.pc.toNat + 2 ≤ 0x200 + s.progLen.val) →
      (∀ x y n, decode w = .drw x y n → stepUnder p r s = drwUnder p.drawEdge x y n { s with pc := s.pc + 2 } ∧
        (p.drawEdge = .fault → n.val = 0 ∨ s.i.toNat + n.val - 1 ≤ 0xFFF →
          (∃ px py, s.spritePixel x y n px py ∧ (64 ≤ px ∨ 32 ≤ py)) →
          stepUnder p r s = .next { s with pc := s.pc + 2, status := .halted .drawOutOfBounds } ∧
          stepResultUnder p r s = some (.fatal .drawOutOfBounds))) ∧
      (∀ x k, decode w = .rnd x k →
        stepUnder p r s =
          .next { s with pc := s.pc + 2, v := s.v.set x.val (r &&& k), rngDraws := s.rngDraws + 1 } ∧
        stepResultUnder p r s = some (.executed w (.rnd x k))) ∧
      ((∀ x y n, decode w ≠ .drw x y n) → (∀ x k, decode w ≠ .rnd x k) →
        stepUnder p r s = exec (decode w) { s with pc := s.pc + 2 })

/-- Under any parameters and RNG a run is the loop of R130: poll, step with a byte drawn from RNG, present the view if
executed. Derived from 00_scope.md R9, 40_fetch_execute.md R130, 40_fetch_execute.md R131, 45_draw.md R229,
92_eei_decisions.md D14. Presenting only after an executed step is decision D14; the list of polls and the form of the
history are the model's (log 19; log 28, DESIGN CHOICE). -/
def Obligations.RunUnderGivenParameters : Prop :=
  ∀ (p : Config.Params) (rng : Rng) (past : List State) (polls : List Bool) (s : State),
    (∃ r : RunResult, runUnder p rng past polls s = .next r ∧ r.presented.length = r.trace.length ∧
      r.trace.length ≤ polls.length) ∧
    (s.status = .running →
      runUnder p rng past (false :: polls) s = .next ⟨{ s with status := .halted .hostStop }, [], [], some .hostStop⟩) ∧
    (∀ (t : State) (w : Word) (i : Instr) (r : RunResult), s.status = .running →
      stepUnder p (rng past s) s = .next t → stepResultUnder p (rng past s) s = some (.executed w i) →
      runUnder p rng (s :: past) polls t = .next r →
      runUnder p rng past (true :: polls) s =
        .next ⟨r.state, t.fb.view :: r.presented, (w, i) :: r.trace, r.ended⟩) ∧
    (∀ (t : State) (q : HaltReason), stepUnder p (rng past s) s = .next t →
      stepResultUnder p (rng past s) s = some .noMoreInstructions ∧ q = .noMoreInstructions ∨
        stepResultUnder p (rng past s) s = some (.fatal q) →
      runUnder p rng past (true :: polls) s = .next ⟨t, [], [], some q⟩)
end

