-- ==== Sys2Proof/Laws/Codec.lean ====
section
/-! SUPPORT. The fields of a word and the formats of 30_encoding.md R71, R76 as arithmetic on the word's value. -/

namespace Sys2Proof

theorem opField_eq (w : Word) : opField w = w.toNat / 4096 := by
  have := w.isLt
  simp only [opField, BitVec.extractLsb'_toNat, Nat.shiftRight_eq_div_pow]
  omega

theorem nibField_val (w : Word) (lo : Nat) : (nibField w lo).val = w.toNat / 2 ^ lo % 16 := by
  simp [nibField, BitVec.extractLsb'_toNat, Nat.shiftRight_eq_div_pow]

theorem xField_val (w : Word) : (xField w).val = w.toNat / 256 % 16 := nibField_val w 8

theorem yField_val (w : Word) : (yField w).val = w.toNat / 16 % 16 := nibField_val w 4

theorem nField_val (w : Word) : (nField w).val = w.toNat % 16 := by
  have := nibField_val w 0
  simpa [nField] using this

theorem kkField_toNat (w : Word) : (kkField w).toNat = w.toNat % 256 := by
  simp [kkField, BitVec.extractLsb'_toNat]

theorem nnnField_toNat (w : Word) : (nnnField w).toNat = w.toNat % 4096 := by
  simp [nnnField, BitVec.extractLsb'_toNat]

/-- Appending is shifting up by the low part's width and adding it. -/
theorem append_toNat {m n : Nat} (a : BitVec m) (b : BitVec n) : (a ++ b).toNat = a.toNat * 2 ^ n + b.toNat := by
  rw [BitVec.toNat_append, ← Nat.shiftLeft_add_eq_or_of_lt b.isLt, Nat.shiftLeft_eq]

theorem nibBits_toNat (x : Fin 16) : (nibBits x).toNat = x.val := by
  simp [nibBits]

theorem wordOfBytes_toNat (hi lo : Byte) : (wordOfBytes hi lo).toNat = hi.toNat * 256 + lo.toNat := append_toNat hi lo

theorem hiByte_toNat (w : Word) : (hiByte w).toNat = w.toNat / 256 := by
  have := w.isLt
  simp only [hiByte, BitVec.extractLsb'_toNat, Nat.shiftRight_eq_div_pow]
  omega

theorem loByte_toNat (w : Word) : (loByte w).toNat = w.toNat % 256 := by
  simp [loByte, BitVec.extractLsb'_toNat]

/-- The two bytes of a word, put together again. -/
@[simp] theorem wordOfBytes_hi_lo (w : Word) : wordOfBytes (hiByte w) (loByte w) = w := by
  apply BitVec.eq_of_toNat_eq
  rw [wordOfBytes_toNat, hiByte_toNat, loByte_toNat]
  omega

/-- A word survives being handed over as its value in 16 bits. -/
theorem ofNat_mod_toNat (w : Word) : BitVec.ofNat 16 (w.toNat % 2 ^ 16) = w :=
  BitVec.eq_of_toNat_eq (by rw [BitVec.toNat_ofNat]; have := w.isLt; omega)

theorem formatA_toNat (op : BitVec 4) (a : Addr) : (formatA op a).toNat = op.toNat * 4096 + a.toNat := append_toNat op a

theorem formatXK_toNat (op : BitVec 4) (x : Reg) (k : Byte) :
    (formatXK op x k).toNat = op.toNat * 4096 + x.val * 256 + k.toNat := by
  have : (formatXK op x k).toNat = (op ++ nibBits x ++ k).toNat := rfl
  rw [this, append_toNat, append_toNat, nibBits_toNat]
  omega

theorem formatXYN_toNat (op : BitVec 4) (x y : Reg) (n : BitVec 4) :
    (formatXYN op x y n).toNat = op.toNat * 4096 + x.val * 256 + y.val * 16 + n.toNat := by
  have : (formatXYN op x y n).toNat = (op ++ nibBits x ++ nibBits y ++ n).toNat := rfl
  rw [this, append_toNat, append_toNat, append_toNat, nibBits_toNat, nibBits_toNat]
  omega

/-- The four nibbles of a word, from the most significant. -/
def nibble (w : Word) (lo : Nat) : BitVec 4 := w.extractLsb' lo 4

theorem nibble_toNat (w : Word) (lo : Nat) : (nibble w lo).toNat = w.toNat / 2 ^ lo % 16 := nibField_val w lo

theorem eq_nibbles (w : Word) : w = nibble w 12 ++ nibble w 8 ++ nibble w 4 ++ nibble w 0 := by
  have hw := w.isLt
  apply BitVec.eq_of_toNat_eq
  rw [append_toNat, append_toNat, append_toNat]
  simp only [nibble_toNat]
  omega

/-- A mask made of whole nibbles picks the word's nibbles one by one. -/
theorem and_nibbles (w : Word) (a b c d : BitVec 4) :
    (w &&& (a ++ b ++ c ++ d : BitVec (4 + 4 + 4 + 4))).toNat =
      (nibble w 12 &&& a).toNat * 4096 + (nibble w 8 &&& b).toNat * 256 + (nibble w 4 &&& c).toNat * 16 +
        (nibble w 0 &&& d).toNat := by
  have h : w &&& (a ++ b ++ c ++ d : BitVec (4 + 4 + 4 + 4)) =
      ((nibble w 12 &&& a) ++ (nibble w 8 &&& b) ++ (nibble w 4 &&& c) ++ (nibble w 0 &&& d) :
        BitVec (4 + 4 + 4 + 4)) := by
    conv_lhs => rw [eq_nibbles w]
    rw [← BitVec.and_append, ← BitVec.and_append, ← BitVec.and_append]
  rw [h, append_toNat, append_toNat, append_toNat]
  omega

theorem nibble_and_ones (b : BitVec 4) : b &&& 0xF = b := by revert b; decide

/-- The masks of the opcode table, as arithmetic on the word's value. -/
theorem mask_F000 (w : Word) : (w &&& 0xF000).toNat = w.toNat / 4096 * 4096 := by
  have := and_nibbles w 0xF 0 0 0
  have hw := w.isLt
  simp only [nibble_and_ones, nibble_toNat] at this
  exact this.trans (by simp; omega)

theorem mask_F00F (w : Word) : (w &&& 0xF00F).toNat = w.toNat / 4096 * 4096 + w.toNat % 16 := by
  have := and_nibbles w 0xF 0 0 0xF
  have hw := w.isLt
  simp only [nibble_and_ones, nibble_toNat] at this
  exact this.trans (by simp; omega)

theorem mask_F0FF (w : Word) : (w &&& 0xF0FF).toNat = w.toNat / 4096 * 4096 + w.toNat % 256 := by
  have := and_nibbles w 0xF 0 0xF 0xF
  have hw := w.isLt
  simp only [nibble_and_ones, nibble_toNat] at this
  exact this.trans (by simp; omega)

theorem mask_FFFF (w : Word) : (w &&& 0xFFFF).toNat = w.toNat := by
  have : (0xFFFF : Word) = BitVec.allOnes 16 := rfl
  rw [this, BitVec.and_allOnes]

/-- A row of the table covers a word exactly when the masked value is the pattern's. -/
theorem covers_iff (r : OpcodeRow) (w : Word) : r.covers w = true ↔ (w &&& r.mask).toNat = r.pattern.toNat := by
  rw [OpcodeRow.covers, beq_iff_eq, BitVec.toNat_inj]

/-- The words some modelled row covers, by their group. -/
theorem modelledWord_iff (w : Word) :
    modelledWord w = true ↔
      (w.toNat / 4096 ∈ [0x0, 0x1, 0x2, 0x3, 0x4, 0x6, 0x7, 0xA, 0xC, 0xD]) ∨
      (w.toNat / 4096 = 0x5 ∧ w.toNat % 16 = 0) ∨ (w.toNat / 4096 = 0x9 ∧ w.toNat % 16 = 0) ∨
      (w.toNat / 4096 = 0x8 ∧ w.toNat % 16 = 4) ∨ (w.toNat / 4096 = 0xF ∧ w.toNat % 256 = 0x1E) := by
  have hw := w.isLt
  have hg : w.toNat / 4096 < 16 := by omega
  have hr : w.toNat % 16 < 16 := Nat.mod_lt _ (by decide)
  have hk : w.toNat % 256 < 256 := Nat.mod_lt _ (by decide)
  have hret : w.toNat = 0xEE → w.toNat / 4096 = 0 := by omega
  simp only [modelledWord, opcodeRows, List.cons_append, List.nil_append, List.any_cons, List.any_nil, Bool.or_false,
    Bool.or_eq_true, covers_iff, mask_F000, mask_F00F, mask_F0FF, mask_FFFF, BitVec.reduceToNat]
  generalize w.toNat / 4096 = g at *
  generalize w.toNat % 16 = r at *
  generalize w.toNat % 256 = k at *
  interval_cases g <;> simp <;> omega

end Sys2Proof
end

