-- ==== Sys2Proof/Laws/Draw.lean ====
section
/-! SUPPORT. The framebuffer's laws, and what a draw does: it flips the cells its set bits fall on, one after another.
Where those cells are distinct the draw is FB XOR M (45_draw.md R227). -/

namespace Sys2Proof.Machine

theorem Framebuffer.get_set (fb : Framebuffer) (x x' : Fin 64) (y y' : Fin 32) (b : Bool) :
    (fb.set x y b).get x' y' = if x = x' ∧ y = y' then b else fb.get x' y' := by
  unfold Framebuffer.set Framebuffer.get
  by_cases hx : x = x'
  · subst hx
    by_cases hy : y = y'
    · subst hy; simp
    · have : y.val ≠ y'.val := fun h => hy (Fin.ext h)
      simp [hy, this]
  · have : x.val ≠ x'.val := fun h => hx (Fin.ext h)
    simp [hx, this]

@[simp] theorem Framebuffer.get_blank (x : Fin 64) (y : Fin 32) : Framebuffer.blank.get x y = false := by
  simp [Framebuffer.blank, Framebuffer.get]

/-- What the host is handed shows the physical pixels (R228, R229). -/
@[simp] theorem Framebuffer.get_view (fb : Framebuffer) (px : Fin 640) (py : Fin 320) :
    fb.view.get px py = fb.physical px py := by
  simp [Framebuffer.view, PhysicalBuffer.get]

/-- Two framebuffers with the same pixels are equal. -/
theorem Framebuffer.ext_get {fb fb' : Framebuffer} (h : ∀ x y, fb.get x y = fb'.get x y) : fb = fb' := by
  apply Vector.ext
  intro x hx
  apply Vector.ext
  intro y hy
  exact h ⟨x, hx⟩ ⟨y, hy⟩

/-- The cell a set sprite bit flips. -/
abbrev Pixel := Fin 64 × Fin 32

/-- Flip one cell, recording a flip from set to unset. -/
def flip (d : Drawn) (p : Pixel) : Drawn := ⟨d.fb.set p.1 p.2 (!d.fb.get p.1 p.2), d.collided || d.fb.get p.1 p.2⟩

theorem get_flip (d : Drawn) (p : Pixel) (x : Fin 64) (y : Fin 32) :
    (flip d p).fb.get x y = (d.fb.get x y ^^ decide (p = (x, y))) := by
  obtain ⟨px, py⟩ := p
  rw [flip, Framebuffer.get_set]
  by_cases h : px = x ∧ py = y
  · obtain ⟨rfl, rfl⟩ := h; simp
  · rw [if_neg h]
    have : ¬ (px, py) = (x, y) := fun e => h ⟨congrArg Prod.fst e, congrArg Prod.snd e⟩
    simp [this]

/-- A bit of the sprite flips its target cell, where the edge policy gives it one. -/
theorem drawBit_eq (e : Config.DrawEdge) (px py : Nat) (bit : Bool) (d : Drawn) :
    drawBit e px py bit d = ((if bit then (target e px py).toList else []).foldl flip d) := by
  unfold drawBit
  cases h : target e px py with
  | none => cases bit <;> simp
  | some p => cases bit <;> simp [Framebuffer.xor, flip]

/-- The cells a row's set bits fall on, from the left. -/
def rowCells (e : Config.DrawEdge) (px py : Nat) (row : Byte) : List Pixel :=
  (List.range 8).flatMap fun dx => if spriteBit row dx then (target e (px + dx) py).toList else []

/-- The cells a sprite's set bits fall on, row by row. -/
def spriteCells (e : Config.DrawEdge) (px : Nat) : Nat → List Byte → List Pixel
  | _, [] => []
  | py, row :: rows => rowCells e px py row ++ spriteCells e px (py + 1) rows

theorem drawRow_eq (e : Config.DrawEdge) (px py : Nat) (row : Byte) (d : Drawn) :
    drawRow e px py row d = (rowCells e px py row).foldl flip d := by
  unfold drawRow rowCells
  generalize List.range 8 = l
  induction l generalizing d with
  | nil => rfl
  | cons dx l ih => rw [List.foldl_cons, List.flatMap_cons, List.foldl_append, ih, drawBit_eq]

theorem drawRows_eq (e : Config.DrawEdge) (px py : Nat) (rows : List Byte) (d : Drawn) :
    drawRows e px py rows d = (spriteCells e px py rows).foldl flip d := by
  induction rows generalizing py d with
  | nil => rfl
  | cons row rows ih => rw [drawRows, spriteCells, List.foldl_append, ih, drawRow_eq]

/-- Distinct cells, flipped one after another, are flipped together; the flag says whether one of them was set. -/
theorem foldl_flip {cs : List Pixel} (h : cs.Nodup) (d : Drawn) (x : Fin 64) (y : Fin 32) :
    (cs.foldl flip d).fb.get x y = (d.fb.get x y ^^ decide ((x, y) ∈ cs)) ∧
      (cs.foldl flip d).collided = (d.collided || cs.any fun p => d.fb.get p.1 p.2) := by
  induction cs generalizing d with
  | nil => simp
  | cons p cs ih =>
    obtain ⟨hp, hcs⟩ := List.nodup_cons.1 h
    obtain ⟨h1, h2⟩ := ih hcs (flip d p)
    rw [List.foldl_cons]
    refine ⟨?_, ?_⟩
    · rw [h1, get_flip]
      by_cases e : p = (x, y)
      · subst e; simp [hp]
      · simp [e, Ne.symm e]
    · rw [h2]
      have e : (cs.any fun q => (flip d p).fb.get q.1 q.2) = cs.any fun q => d.fb.get q.1 q.2 := by
        have aux : ∀ l : List Pixel, p ∉ l →
            (l.any fun q => (flip d p).fb.get q.1 q.2) = l.any fun q => d.fb.get q.1 q.2 := by
          intro l hl
          induction l with
          | nil => rfl
          | cons q l ihl =>
            simp only [List.mem_cons, not_or] at hl
            rw [List.any_cons, List.any_cons, ihl hl.2, get_flip]
            simp [hl.1]
        exact aux cs hp
      rw [e, List.any_cons, ← Bool.or_assoc]; rfl

theorem mem_rowCells {e : Config.DrawEdge} {px py : Nat} {row : Byte} {p : Pixel} :
    p ∈ rowCells e px py row ↔ ∃ dx < 8, spriteBit row dx = true ∧ target e (px + dx) py = some p := by
  unfold rowCells
  simp only [List.mem_flatMap, List.mem_range]
  constructor
  · rintro ⟨dx, hdx, h⟩
    split at h
    · exact ⟨dx, hdx, by assumption, by simpa using h⟩
    · simp at h
  · rintro ⟨dx, hdx, hb, ht⟩
    exact ⟨dx, hdx, by simp [hb, ht]⟩

/-- A cell is flipped exactly when some set bit of some row has it as its target. -/
theorem mem_spriteCells {e : Config.DrawEdge} {px py : Nat} {rows : List Byte} {p : Pixel} :
    p ∈ spriteCells e px py rows ↔
      ∃ dy dx, dy < rows.length ∧ dx < 8 ∧ spriteBit (rows.getD dy 0) dx = true ∧
        target e (px + dx) (py + dy) = some p := by
  induction rows generalizing py with
  | nil => simp [spriteCells]
  | cons row rows ih =>
    rw [spriteCells, List.mem_append, mem_rowCells, ih]
    constructor
    · rintro (⟨dx, h8, hb, ht⟩ | ⟨dy, dx, hdy, h8, hb, ht⟩)
      · exact ⟨0, dx, by simp, h8, by simpa using hb, by simpa using ht⟩
      · exact ⟨dy + 1, dx, by simpa using hdy, h8, by simpa using hb, by rw [← ht]; congr 1; omega⟩
    · rintro ⟨dy, dx, hdy, h8, hb, ht⟩
      cases dy with
      | zero => exact .inl ⟨dx, h8, by simpa using hb, by simpa using ht⟩
      | succ dy =>
        exact .inr ⟨dy, dx, by simpa using hdy, h8, by simpa using hb, by rw [← ht]; congr 1; omega⟩

/-- Two bits less than a framebuffer apart with one target are one bit. -/
theorem target_inj {e : Config.DrawEdge} {ax ay bx bY : Nat} {p : Pixel} (ha : target e ax ay = some p)
    (hb : target e bx bY = some p) (hx : ax < bx + 64) (hx' : bx < ax + 64) (hy : ay < bY + 32) (hy' : bY < ay + 32) :
    ax = bx ∧ ay = bY := by
  cases e with
  | wrap =>
    simp only [target, Option.some.injEq] at ha hb
    subst ha
    simp only [Prod.mk.injEq, Fin.mk.injEq] at hb
    omega
  | clip =>
    simp only [target, Option.dite_none_right_eq_some] at ha hb
    obtain ⟨_, ha⟩ := ha
    obtain ⟨_, hb⟩ := hb
    simp only [Option.some.injEq] at ha hb
    subst ha
    simp only [Prod.mk.injEq, Fin.mk.injEq] at hb
    omega
  | fault =>
    simp only [target, Option.dite_none_right_eq_some] at ha hb
    obtain ⟨_, ha⟩ := ha
    obtain ⟨_, hb⟩ := hb
    simp only [Option.some.injEq] at ha hb
    subst ha
    simp only [Prod.mk.injEq, Fin.mk.injEq] at hb
    omega

theorem rowCells_nodup (e : Config.DrawEdge) (px py : Nat) (row : Byte) : (rowCells e px py row).Nodup := by
  unfold rowCells
  rw [List.nodup_flatMap]
  refine ⟨?_, ?_⟩
  · intro dx _
    split
    · cases target e (px + dx) py <;> simp
    · exact List.nodup_nil
  · refine (List.nodup_range (n := 8)).imp_of_mem ?_
    intro a b ha hb hab p hpa hpb
    dsimp only at hpa hpb
    simp only [List.mem_range] at ha hb
    split at hpa <;> simp only [Option.mem_toList, List.not_mem_nil] at hpa
    split at hpb <;> simp only [Option.mem_toList, List.not_mem_nil] at hpb
    have := target_inj hpa hpb (by omega) (by omega) (by omega) (by omega)
    omega

/-- The target cells of one draw are distinct (R227). -/
theorem spriteCells_nodup (e : Config.DrawEdge) (px py : Nat) (rows : List Byte) (h : rows.length ≤ 32) :
    (spriteCells e px py rows).Nodup := by
  induction rows generalizing py with
  | nil => exact List.nodup_nil
  | cons row rows ih =>
    simp only [List.length_cons] at h
    rw [spriteCells, List.nodup_append]
    refine ⟨rowCells_nodup e px py row, ih (py + 1) (by omega), ?_⟩
    rintro p hp q hq rfl
    obtain ⟨dx, hdx, _, ht⟩ := mem_rowCells.1 hp
    obtain ⟨dy, dx', hdy, hdx', _, ht'⟩ := mem_spriteCells.1 hq
    have := target_inj ht ht' (by omega) (by omega) (by omega) (by omega)
    omega

/-- What `draw_sprite` does to every pixel, and its flag (R224, R227). -/
theorem drawSprite_spec (e : Config.DrawEdge) (px py : Nat) (rows : List Byte) (fb : Framebuffer)
    (h : rows.length ≤ 32) (x : Fin 64) (y : Fin 32) :
    (drawSprite e px py rows fb).fb.get x y = (fb.get x y ^^ decide ((x, y) ∈ spriteCells e px py rows)) ∧
      (drawSprite e px py rows fb).collided = (spriteCells e px py rows).any fun p => fb.get p.1 p.2 := by
  have := foldl_flip (spriteCells_nodup e px py rows h) ⟨fb, false⟩ x y
  rw [drawSprite, drawRows_eq]
  simpa using this

/-- The edge check of `DRAW_EDGE` = `Fault` (R230). -/
theorem spriteOutside_iff {px py : Nat} {rows : List Byte} :
    spriteOutside px py rows = true ↔
      ∃ dy dx, dy < rows.length ∧ dx < 8 ∧ spriteBit (rows.getD dy 0) dx = true ∧ (64 ≤ px + dx ∨ 32 ≤ py + dy) := by
  induction rows generalizing py with
  | nil => simp [spriteOutside]
  | cons row rows ih =>
    rw [spriteOutside, Bool.or_eq_true, ih, List.any_eq_true]
    constructor
    · rintro (⟨dx, h8, hb⟩ | ⟨dy, dx, hdy, h8, hb, ht⟩)
      · simp only [Bool.and_eq_true, Bool.or_eq_true, decide_eq_true_eq, List.mem_range] at h8 hb
        exact ⟨0, dx, by simp, h8, by simpa using hb.1, by simpa using hb.2⟩
      · exact ⟨dy + 1, dx, by simpa using hdy, h8, by simpa using hb, by omega⟩
    · rintro ⟨dy, dx, hdy, h8, hb, ht⟩
      cases dy with
      | zero => exact .inl ⟨dx, List.mem_range.2 h8, by simp at hb ht; simp [hb, ht]⟩
      | succ dy => exact .inr ⟨dy, dx, by simpa using hdy, h8, by simpa using hb, by omega⟩

end Sys2Proof.Machine
end

