-- ==== Sys2Proof/Laws/Memory.lean ====
section
/-! SUPPORT. The laws of memory: read after write, the canonical form, and what the checked reads answer. -/

namespace Sys2Proof.Machine

theorem Memory.read_write_same (m : Memory) (a : Nat) (b : Byte) (h : m.wf = true) : (m.write a b).read a = b := by
  have key : ∀ (m : Memory) (lo : Nat), Memory.wfFrom lo m = true → (m.write a b).read a = b := by
    intro m
    induction m with
    | nil => intro lo _; unfold Memory.write; split <;> simp_all [Memory.read]
    | cons c m ih =>
      obtain ⟨a', b'⟩ := c
      intro lo hlo
      simp only [Memory.wfFrom, Bool.and_eq_true, decide_eq_true_eq] at hlo
      have absent : ∀ (m : Memory) (lo : Nat), Memory.wfFrom lo m = true → a < lo → m.read a = Memory.unlisted := by
        intro m
        induction m with
        | nil => intros; rfl
        | cons c m ih =>
          obtain ⟨a', b'⟩ := c
          intro lo hlo hlt
          simp only [Memory.wfFrom, Bool.and_eq_true, decide_eq_true_eq] at hlo
          rw [Memory.read, if_neg (by omega)]
          exact ih _ hlo.2 (by omega)
      unfold Memory.write
      split
      · split
        · rename_i hb
          rw [Memory.read, if_neg (by omega), absent m _ hlo.2 (by omega), hb]
        · simp [Memory.read]
      · split
        · split
          · rename_i ha hb
            rw [absent m _ hlo.2 (by omega), hb]
          · simp [Memory.read]
        · rw [Memory.read, if_neg (by assumption)]
          exact ih _ hlo.2
  exact key m 0 h

theorem Memory.read_write_other (m : Memory) {a a' : Nat} (b : Byte) (h : a' ≠ a) : (m.write a b).read a' = m.read a' := by
  induction m with
  | nil => unfold Memory.write; split <;> simp [Memory.read, h]
  | cons c m ih =>
    obtain ⟨k, b'⟩ := c
    unfold Memory.write
    split
    · split
      · rfl
      · rw [Memory.read, if_neg h]
    · split
      · rename_i hk
        subst hk
        split <;> simp [Memory.read, h]
      · simp only [Memory.read, ih]

theorem Memory.wfFrom_weaken {lo lo' : Nat} {m : Memory} (h : Memory.wfFrom lo m = true) (hle : lo' ≤ lo) :
    Memory.wfFrom lo' m = true := by
  cases m with
  | nil => rfl
  | cons c m =>
    obtain ⟨a, b⟩ := c
    simp only [Memory.wfFrom, Bool.and_eq_true, decide_eq_true_eq] at h ⊢
    exact ⟨⟨⟨by omega, h.1.1.2⟩, h.1.2⟩, h.2⟩

theorem Memory.write_wfFrom {m : Memory} {lo a : Nat} (b : Byte) (h : Memory.wfFrom lo m = true) (hlo : lo ≤ a)
    (ha : a < Config.memSize) : Memory.wfFrom lo (m.write a b) = true := by
  induction m generalizing lo with
  | nil =>
    unfold Memory.write
    split
    · rfl
    · simp_all [Memory.wfFrom]
  | cons c m ih =>
    obtain ⟨a', b'⟩ := c
    simp only [Memory.wfFrom, Bool.and_eq_true, decide_eq_true_eq] at h
    unfold Memory.write
    split
    · split
      · simp [Memory.wfFrom, h]
      · simp_all [Memory.wfFrom]
    · split
      · split
        · exact Memory.wfFrom_weaken h.2 (by omega)
        · simp_all [Memory.wfFrom]
      · simp only [Memory.wfFrom, Bool.and_eq_true, decide_eq_true_eq]
        exact ⟨h.1, ih h.2 (by omega)⟩

/-- A write keeps the canonical form. -/
theorem Memory.write_wf {m : Memory} {a : Nat} (b : Byte) (h : m.wf = true) (ha : a < Config.memSize) :
    (m.write a b).wf = true :=
  Memory.write_wfFrom b h (Nat.zero_le a) ha

/-- Writing a run of bytes keeps the canonical form. -/
theorem Memory.writeBytes_wf {m : Memory} {a : Nat} (bs : List Byte) (h : m.wf = true)
    (ha : a + bs.length ≤ Config.memSize) : (m.writeBytes a bs).wf = true := by
  induction bs generalizing m a with
  | nil => exact h
  | cons b bs ih =>
    simp only [List.length_cons] at ha
    exact ih (Memory.write_wf b h (by omega)) (by omega)

/-- What memory reads as after a run of bytes is written. -/
theorem Memory.read_writeBytes {m : Memory} {a : Nat} (bs : List Byte) (h : m.wf = true)
    (ha : a + bs.length ≤ Config.memSize) (k : Nat) :
    (m.writeBytes a bs).read k = if a ≤ k then bs.getD (k - a) (m.read k) else m.read k := by
  induction bs generalizing m a with
  | nil => simp [Memory.writeBytes]
  | cons b bs ih =>
    simp only [List.length_cons] at ha
    rw [Memory.writeBytes, ih (Memory.write_wf b h (by omega)) (by omega)]
    by_cases hk : k = a
    · subst hk
      simp [Memory.read_write_same m k b h]
    · rw [Memory.read_write_other m b hk]
      by_cases hle : a ≤ k
      · have e : k - a = (k - (a + 1)) + 1 := by omega
        rw [if_pos (by omega), if_pos hle, e, List.getD_cons_succ]
      · rw [if_neg (by omega), if_neg hle]

/-- A memory in canonical form is determined by what its addresses read as. -/
theorem Memory.ext_of_wf {m m' : Memory} (h : m.wf = true) (h' : m'.wf = true) (hr : ∀ a, m.read a = m'.read a) :
    m = m' := by
  have absent : ∀ (m : Memory) (lo a : Nat), Memory.wfFrom lo m = true → a < lo → m.read a = Memory.unlisted := by
    intro m
    induction m with
    | nil => intros; rfl
    | cons c m ih =>
      obtain ⟨a', b'⟩ := c
      intro lo a hlo hlt
      simp only [Memory.wfFrom, Bool.and_eq_true, decide_eq_true_eq] at hlo
      rw [Memory.read, if_neg (by omega)]
      exact ih _ _ hlo.2 (by omega)
  have key : ∀ (m m' : Memory) (lo lo' : Nat), Memory.wfFrom lo m = true → Memory.wfFrom lo' m' = true →
      (∀ a, m.read a = m'.read a) → m = m' := by
    intro m
    induction m with
    | nil =>
      intro m' lo lo' _ h' hr
      cases m' with
      | nil => rfl
      | cons c m' =>
        obtain ⟨a, b⟩ := c
        have := hr a
        simp_all [Memory.read, Memory.wfFrom]
    | cons c m ih =>
      obtain ⟨a, b⟩ := c
      intro m' lo lo' h h' hr
      simp only [Memory.wfFrom, Bool.and_eq_true, decide_eq_true_eq, bne_iff_ne] at h
      cases m' with
      | nil => have := hr a; simp_all [Memory.read]
      | cons c' m' =>
        obtain ⟨a', b'⟩ := c'
        simp only [Memory.wfFrom, Bool.and_eq_true, decide_eq_true_eq, bne_iff_ne] at h'
        have e : a = a' := by
          have h1 := hr a
          have h2 := hr a'
          simp only [Memory.read, if_true] at h1 h2
          by_contra hne
          rw [if_neg hne] at h1
          rw [if_neg (Ne.symm hne)] at h2
          rcases Nat.lt_or_gt_of_ne hne with hlt | hlt
          · exact h.1.2 (h1.trans (absent m' _ _ h'.2 (by omega)))
          · exact h'.1.2 (h2.symm.trans (absent m _ _ h.2 (by omega)))
        subst e
        have hb : b = b' := by have := hr a; simpa [Memory.read] using this
        subst hb
        have htail : ∀ k, Memory.read m k = Memory.read m' k := by
          intro k
          by_cases hk : k = a
          · subst hk; rw [absent m _ _ h.2 (by omega), absent m' _ _ h'.2 (by omega)]
          · have := hr k; simpa [Memory.read, hk] using this
        rw [ih m' _ _ h.2 h'.2 htail]
  exact key m m' 0 0 h h' hr

theorem reset_mem_wf : State.reset.mem.wf = true := rfl

theorem memRead_of_lt {m : Memory} {a : Nat} (h : a < Config.memSize) : memRead m a = .ok (m.read a) := if_pos h

theorem memRead_of_not_lt {m : Memory} {a : Nat} (h : ¬ a < Config.memSize) : memRead m a = .error (.noSuchAddress a) :=
  if_neg h

/-- Rows read inside the address space are the bytes at consecutive addresses. -/
theorem readRows_of_le {m : Memory} {a n : Nat} (h : a + n ≤ Config.memSize) :
    readRows m a n = .ok ((List.range n).map fun j => m.read (a + j)) := by
  induction n generalizing a with
  | zero => rfl
  | succ n ih =>
    rw [readRows, memRead_of_lt (by omega), ih (by omega), List.range_succ_eq_map]
    simp [Nat.add_comm, Nat.add_left_comm]

/-- Placing a word at PC keeps the canonical form. -/
theorem State.storeWordAtPc_wf {s : State} (w : Word) (h : s.mem.wf = true) : (s.storeWordAtPc w).mem.wf = true := by
  unfold State.storeWordAtPc
  split
  · exact Memory.writeBytes_wf _ h (by simp; omega)
  · exact h

/-- Placing an instruction for the host keeps the canonical form. -/
theorem State.withFetchWord_wf {s : State} (nbits w : Nat) (h : s.mem.wf = true) :
    (s.withFetchWord nbits w).mem.wf = true :=
  State.storeWordAtPc_wf _ h

end Sys2Proof.Machine
end

