-- ==== Sys2Proof/Laws/State.lean ====
section
/-! SUPPORT. One lemma per field per named update of the state. -/

namespace Sys2Proof.Machine

variable (s : State)

@[simp] theorem State.writeV_v (x : Reg) (b : Byte) : (s.writeV x b).v = s.v.set x.val b := rfl
@[simp] theorem State.writeV_i (x : Reg) (b : Byte) : (s.writeV x b).i = s.i := rfl
@[simp] theorem State.writeV_pc (x : Reg) (b : Byte) : (s.writeV x b).pc = s.pc := rfl
@[simp] theorem State.writeV_sp (x : Reg) (b : Byte) : (s.writeV x b).sp = s.sp := rfl
@[simp] theorem State.writeV_stack (x : Reg) (b : Byte) : (s.writeV x b).stack = s.stack := rfl
@[simp] theorem State.writeV_mem (x : Reg) (b : Byte) : (s.writeV x b).mem = s.mem := rfl
@[simp] theorem State.writeV_fb (x : Reg) (b : Byte) : (s.writeV x b).fb = s.fb := rfl
@[simp] theorem State.writeV_status (x : Reg) (b : Byte) : (s.writeV x b).status = s.status := rfl
@[simp] theorem State.writeV_progLen (x : Reg) (b : Byte) : (s.writeV x b).progLen = s.progLen := rfl
@[simp] theorem State.writeV_loaded (x : Reg) (b : Byte) : (s.writeV x b).loaded = s.loaded := rfl
@[simp] theorem State.writeV_rngDraws (x : Reg) (b : Byte) : (s.writeV x b).rngDraws = s.rngDraws := rfl

@[simp] theorem State.writeI_v (w : Word) : (s.writeI w).v = s.v := rfl
@[simp] theorem State.writeI_i (w : Word) : (s.writeI w).i = w := rfl
@[simp] theorem State.writeI_pc (w : Word) : (s.writeI w).pc = s.pc := rfl
@[simp] theorem State.writeI_sp (w : Word) : (s.writeI w).sp = s.sp := rfl
@[simp] theorem State.writeI_stack (w : Word) : (s.writeI w).stack = s.stack := rfl
@[simp] theorem State.writeI_mem (w : Word) : (s.writeI w).mem = s.mem := rfl
@[simp] theorem State.writeI_fb (w : Word) : (s.writeI w).fb = s.fb := rfl
@[simp] theorem State.writeI_status (w : Word) : (s.writeI w).status = s.status := rfl
@[simp] theorem State.writeI_progLen (w : Word) : (s.writeI w).progLen = s.progLen := rfl
@[simp] theorem State.writeI_loaded (w : Word) : (s.writeI w).loaded = s.loaded := rfl
@[simp] theorem State.writeI_rngDraws (w : Word) : (s.writeI w).rngDraws = s.rngDraws := rfl

@[simp] theorem State.writePc_v (w : Word) : (s.writePc w).v = s.v := rfl
@[simp] theorem State.writePc_i (w : Word) : (s.writePc w).i = s.i := rfl
@[simp] theorem State.writePc_pc (w : Word) : (s.writePc w).pc = w := rfl
@[simp] theorem State.writePc_sp (w : Word) : (s.writePc w).sp = s.sp := rfl
@[simp] theorem State.writePc_stack (w : Word) : (s.writePc w).stack = s.stack := rfl
@[simp] theorem State.writePc_mem (w : Word) : (s.writePc w).mem = s.mem := rfl
@[simp] theorem State.writePc_fb (w : Word) : (s.writePc w).fb = s.fb := rfl
@[simp] theorem State.writePc_status (w : Word) : (s.writePc w).status = s.status := rfl
@[simp] theorem State.writePc_progLen (w : Word) : (s.writePc w).progLen = s.progLen := rfl
@[simp] theorem State.writePc_loaded (w : Word) : (s.writePc w).loaded = s.loaded := rfl
@[simp] theorem State.writePc_rngDraws (w : Word) : (s.writePc w).rngDraws = s.rngDraws := rfl

@[simp] theorem State.advancePc_v : (s.advancePc).v = s.v := rfl
@[simp] theorem State.advancePc_i : (s.advancePc).i = s.i := rfl
@[simp] theorem State.advancePc_pc : (s.advancePc).pc = s.pc + 2 := rfl
@[simp] theorem State.advancePc_sp : (s.advancePc).sp = s.sp := rfl
@[simp] theorem State.advancePc_stack : (s.advancePc).stack = s.stack := rfl
@[simp] theorem State.advancePc_mem : (s.advancePc).mem = s.mem := rfl
@[simp] theorem State.advancePc_fb : (s.advancePc).fb = s.fb := rfl
@[simp] theorem State.advancePc_status : (s.advancePc).status = s.status := rfl
@[simp] theorem State.advancePc_progLen : (s.advancePc).progLen = s.progLen := rfl
@[simp] theorem State.advancePc_loaded : (s.advancePc).loaded = s.loaded := rfl
@[simp] theorem State.advancePc_rngDraws : (s.advancePc).rngDraws = s.rngDraws := rfl

@[simp] theorem State.writeFb_v (fb : Framebuffer) : (s.writeFb fb).v = s.v := rfl
@[simp] theorem State.writeFb_i (fb : Framebuffer) : (s.writeFb fb).i = s.i := rfl
@[simp] theorem State.writeFb_pc (fb : Framebuffer) : (s.writeFb fb).pc = s.pc := rfl
@[simp] theorem State.writeFb_sp (fb : Framebuffer) : (s.writeFb fb).sp = s.sp := rfl
@[simp] theorem State.writeFb_stack (fb : Framebuffer) : (s.writeFb fb).stack = s.stack := rfl
@[simp] theorem State.writeFb_mem (fb : Framebuffer) : (s.writeFb fb).mem = s.mem := rfl
@[simp] theorem State.writeFb_fb (fb : Framebuffer) : (s.writeFb fb).fb = fb := rfl
@[simp] theorem State.writeFb_status (fb : Framebuffer) : (s.writeFb fb).status = s.status := rfl
@[simp] theorem State.writeFb_progLen (fb : Framebuffer) : (s.writeFb fb).progLen = s.progLen := rfl
@[simp] theorem State.writeFb_loaded (fb : Framebuffer) : (s.writeFb fb).loaded = s.loaded := rfl
@[simp] theorem State.writeFb_rngDraws (fb : Framebuffer) : (s.writeFb fb).rngDraws = s.rngDraws := rfl

@[simp] theorem State.halt_v (r : HaltReason) : (s.halt r).v = s.v := rfl
@[simp] theorem State.halt_i (r : HaltReason) : (s.halt r).i = s.i := rfl
@[simp] theorem State.halt_pc (r : HaltReason) : (s.halt r).pc = s.pc := rfl
@[simp] theorem State.halt_sp (r : HaltReason) : (s.halt r).sp = s.sp := rfl
@[simp] theorem State.halt_stack (r : HaltReason) : (s.halt r).stack = s.stack := rfl
@[simp] theorem State.halt_mem (r : HaltReason) : (s.halt r).mem = s.mem := rfl
@[simp] theorem State.halt_fb (r : HaltReason) : (s.halt r).fb = s.fb := rfl
@[simp] theorem State.halt_status (r : HaltReason) : (s.halt r).status = .halted r := rfl
@[simp] theorem State.halt_progLen (r : HaltReason) : (s.halt r).progLen = s.progLen := rfl
@[simp] theorem State.halt_loaded (r : HaltReason) : (s.halt r).loaded = s.loaded := rfl
@[simp] theorem State.halt_rngDraws (r : HaltReason) : (s.halt r).rngDraws = s.rngDraws := rfl

@[simp] theorem State.writeFlag_v (f : Bool) : (s.writeFlag f).v = s.v.set VF.val (flagByte f) := rfl
@[simp] theorem State.writeFlag_i (f : Bool) : (s.writeFlag f).i = s.i := rfl
@[simp] theorem State.writeFlag_pc (f : Bool) : (s.writeFlag f).pc = s.pc := rfl
@[simp] theorem State.writeFlag_sp (f : Bool) : (s.writeFlag f).sp = s.sp := rfl
@[simp] theorem State.writeFlag_stack (f : Bool) : (s.writeFlag f).stack = s.stack := rfl
@[simp] theorem State.writeFlag_mem (f : Bool) : (s.writeFlag f).mem = s.mem := rfl
@[simp] theorem State.writeFlag_fb (f : Bool) : (s.writeFlag f).fb = s.fb := rfl
@[simp] theorem State.writeFlag_status (f : Bool) : (s.writeFlag f).status = s.status := rfl
@[simp] theorem State.writeFlag_progLen (f : Bool) : (s.writeFlag f).progLen = s.progLen := rfl
@[simp] theorem State.writeFlag_loaded (f : Bool) : (s.writeFlag f).loaded = s.loaded := rfl
@[simp] theorem State.writeFlag_rngDraws (f : Bool) : (s.writeFlag f).rngDraws = s.rngDraws := rfl

@[simp] theorem State.drawRandom_v : (s.drawRandom.2).v = s.v := rfl
@[simp] theorem State.drawRandom_i : (s.drawRandom.2).i = s.i := rfl
@[simp] theorem State.drawRandom_pc : (s.drawRandom.2).pc = s.pc := rfl
@[simp] theorem State.drawRandom_sp : (s.drawRandom.2).sp = s.sp := rfl
@[simp] theorem State.drawRandom_stack : (s.drawRandom.2).stack = s.stack := rfl
@[simp] theorem State.drawRandom_mem : (s.drawRandom.2).mem = s.mem := rfl
@[simp] theorem State.drawRandom_fb : (s.drawRandom.2).fb = s.fb := rfl
@[simp] theorem State.drawRandom_status : (s.drawRandom.2).status = s.status := rfl
@[simp] theorem State.drawRandom_progLen : (s.drawRandom.2).progLen = s.progLen := rfl
@[simp] theorem State.drawRandom_loaded : (s.drawRandom.2).loaded = s.loaded := rfl
@[simp] theorem State.drawRandom_rngDraws : (s.drawRandom.2).rngDraws = s.rngDraws + 1 := rfl

@[simp] theorem rndWith_v (r : Byte) (x : Reg) (k : Byte) : (rndWith r x k s).v = s.v.set x.val (r &&& k) := rfl
@[simp] theorem rndWith_i (r : Byte) (x : Reg) (k : Byte) : (rndWith r x k s).i = s.i := rfl
@[simp] theorem rndWith_pc (r : Byte) (x : Reg) (k : Byte) : (rndWith r x k s).pc = s.pc := rfl
@[simp] theorem rndWith_sp (r : Byte) (x : Reg) (k : Byte) : (rndWith r x k s).sp = s.sp := rfl
@[simp] theorem rndWith_stack (r : Byte) (x : Reg) (k : Byte) : (rndWith r x k s).stack = s.stack := rfl
@[simp] theorem rndWith_mem (r : Byte) (x : Reg) (k : Byte) : (rndWith r x k s).mem = s.mem := rfl
@[simp] theorem rndWith_fb (r : Byte) (x : Reg) (k : Byte) : (rndWith r x k s).fb = s.fb := rfl
@[simp] theorem rndWith_status (r : Byte) (x : Reg) (k : Byte) : (rndWith r x k s).status = s.status := rfl
@[simp] theorem rndWith_progLen (r : Byte) (x : Reg) (k : Byte) : (rndWith r x k s).progLen = s.progLen := rfl
@[simp] theorem rndWith_loaded (r : Byte) (x : Reg) (k : Byte) : (rndWith r x k s).loaded = s.loaded := rfl
@[simp] theorem rndWith_rngDraws (r : Byte) (x : Reg) (k : Byte) : (rndWith r x k s).rngDraws = s.rngDraws := rfl

end Sys2Proof.Machine
end

