-- ==== Sys2Proof/Laws/Ops.lean ====
section
/-! SUPPORT. One lemma for each shared operation over registers, stack, fetch and status, which says once what it can
do. -/

namespace Sys2Proof.Machine

variable (s : State)

theorem State.readV_writeV (x y : Reg) (b : Byte) : (s.writeV x b).readV y = if x = y then b else s.readV y := by
  unfold State.readV
  by_cases h : x = y
  · subst h; simp
  · have : x.val ≠ y.val := fun e => h (Fin.ext e)
    simp [h, this]

@[simp] theorem State.readV_writeV_self (x : Reg) (b : Byte) : (s.writeV x b).readV x = b := by
  simp [State.readV_writeV]

theorem State.readV_writeFlag (f : Bool) (y : Reg) :
    (s.writeFlag f).readV y = if VF = y then flagByte f else s.readV y :=
  State.readV_writeV s VF y (flagByte f)

@[simp] theorem State.readV_writeI (w : Word) (x : Reg) : (s.writeI w).readV x = s.readV x := rfl
@[simp] theorem State.readV_writePc (w : Word) (x : Reg) : (s.writePc w).readV x = s.readV x := rfl
@[simp] theorem State.readV_advancePc (x : Reg) : s.advancePc.readV x = s.readV x := rfl
@[simp] theorem State.readV_writeFb (fb : Framebuffer) (x : Reg) : (s.writeFb fb).readV x = s.readV x := rfl
@[simp] theorem State.readV_halt (r : HaltReason) (x : Reg) : (s.halt r).readV x = s.readV x := rfl
@[simp] theorem State.readV_drawRandom (x : Reg) : s.drawRandom.2.readV x = s.readV x := rfl
@[simp] theorem State.drawRandom_byte : s.drawRandom.1 = Config.rngByte s.rngDraws := rfl

theorem flagByte_true : flagByte true = 0x01 := rfl
theorem flagByte_false : flagByte false = 0x00 := rfl

/-- An 8-bit sum is BitVec addition. -/
theorem sum8_eq (a b : Byte) : sum8 a b = a + b := by
  apply BitVec.eq_of_toNat_eq
  simp [sum8]

variable {s}

/-- Everything a push can do. -/
theorem State.push_cases (w : Word) :
    (∃ h : s.sp.val < 16, s.push w =
      some { s with stack := s.stack.set s.sp.val w, sp := ⟨s.sp.val + 1, Nat.succ_lt_succ h⟩ }) ∨
      (s.sp.val = 16 ∧ s.push w = none) := by
  unfold State.push
  split
  · exact .inl ⟨by assumption, rfl⟩
  · exact .inr ⟨by omega, rfl⟩

/-- Everything a pop can do. -/
theorem State.pop_cases :
    (∃ (_ : 0 < s.sp.val) (p : Fin 17), p.val = s.sp.val - 1 ∧
      s.pop = some (s.stack[s.sp.val - 1], { s with sp := p })) ∨
      (s.sp.val = 0 ∧ s.pop = none) := by
  unfold State.pop
  split
  · exact .inl ⟨by assumption, _, rfl, rfl⟩
  · exact .inr ⟨by omega, rfl⟩

/-- A fetch inside memory answers the big-endian word at PC. -/
theorem fetchWord_of_le {l : Config.FetchLimit} (h : s.pc.toNat + 2 ≤ limitAddress l s)
    (hm : s.pc.toNat + 2 ≤ Config.memSize) :
    fetchWord l s = .ok (some (wordOfBytes (s.mem.read s.pc.toNat) (s.mem.read (s.pc.toNat + 1)))) := by
  rw [fetchWord, if_pos h, memRead_of_lt (by omega), memRead_of_lt (by omega)]

/-- A fetch past the limit answers that there is no word. -/
theorem fetchWord_of_not_le {l : Config.FetchLimit} (h : ¬ s.pc.toNat + 2 ≤ limitAddress l s) :
    fetchWord l s = .ok none :=
  if_neg h

/-- No limit lies beyond the end of memory. -/
theorem limitAddress_le (l : Config.FetchLimit) (s : State) : limitAddress l s ≤ Config.memSize := by
  cases l with
  | endOfMemory => exact Nat.le_refl _
  | endOfProgram =>
    have := s.progLen.isLt
    simp only [limitAddress, Config.loadAddress, Config.memSize]
    omega

/-- Everything a step around `execute` can do: keep a halted machine, end the fetch, or run the decoded word. -/
theorem cycle_cases (l : Config.FetchLimit) (execute : Instr → State → Host.Outcome State Fault Refusal) (s : State) :
    (∃ r, s.status = .halted r ∧ cycle l execute s = .next s) ∨
      (s.status = .running ∧ limitAddress l s < s.pc.toNat + 2 ∧
        cycle l execute s = .next (s.halt .noMoreInstructions)) ∨
      (s.status = .running ∧ s.pc.toNat + 2 ≤ limitAddress l s ∧
        cycle l execute s =
          execute (decode (wordOfBytes (s.mem.read s.pc.toNat) (s.mem.read (s.pc.toNat + 1)))) s.advancePc) := by
  have hl := limitAddress_le l s
  unfold cycle
  cases hs : s.status with
  | halted r => exact .inl ⟨r, rfl, rfl⟩
  | running =>
    refine .inr ?_
    by_cases h : s.pc.toNat + 2 ≤ limitAddress l s
    · exact .inr ⟨rfl, h, by rw [fetchWord_of_le h (by omega)]⟩
    · exact .inl ⟨rfl, by omega, by rw [fetchWord_of_not_le h]⟩

/-- `execute` under given parameters is `exec` but for DRW and RND. -/
theorem execUnder_cases (e : Config.DrawEdge) (r : Byte) (i : Instr) (s : State) :
    (∃ x y n, i = .drw x y n ∧ execUnder e r i s = drwUnder e x y n s) ∨
      (∃ x k, i = .rnd x k ∧ execUnder e r i s = rndUnder r x k s) ∨
      ((∀ x y n, i ≠ .drw x y n) ∧ (∀ x k, i ≠ .rnd x k) ∧ execUnder e r i s = exec i s) := by
  cases i with
  | drw x y n => exact .inl ⟨x, y, n, rfl, rfl⟩
  | rnd x k => exact .inr (.inl ⟨x, k, rfl, rfl⟩)
  | _ => exact .inr (.inr ⟨nofun, nofun, rfl⟩)

/-- DRW: out of the memory's range, outside the screen under `Fault`, or drawn. -/
theorem drwUnder_cases (e : Config.DrawEdge) (x y : Reg) (n : Nib) (s : State) :
    (0 < n.val ∧ 0xFFF < s.i.toNat + n.val - 1 ∧ drwUnder e x y n s = .next (s.halt .spriteOutOfRange)) ∨
      ∃ rows : List Byte, (n.val = 0 ∨ s.i.toNat + n.val - 1 ≤ 0xFFF) ∧
        rows = (List.range n.val).map (fun j => s.mem.read (s.i.toNat + j)) ∧
        ((e = .fault ∧ spriteOutside (s.coordinate x) (s.coordinate y) rows = true ∧
            drwUnder e x y n s = .next (s.halt .drawOutOfBounds)) ∨
          (¬ (e = .fault ∧ spriteOutside (s.coordinate x) (s.coordinate y) rows = true) ∧
            drwUnder e x y n s =
              .next ((s.writeFb (drawSprite e (s.coordinate x) (s.coordinate y) rows s.fb).fb).writeFlag
                (drawSprite e (s.coordinate x) (s.coordinate y) rows s.fb).collided))) := by
  unfold drwUnder
  by_cases h : 0 < n.val ∧ 0xFFF < s.i.toNat + n.val - 1
  · exact .inl ⟨h.1, h.2, by rw [if_pos (by simpa [spritePastMemory] using h)]; rfl⟩
  · refine .inr ⟨_, by omega, rfl, ?_⟩
    have hr : readRows s.mem s.i.toNat n.val = .ok ((List.range n.val).map fun j => s.mem.read (s.i.toNat + j)) := by
      by_cases h0 : n.val = 0
      · rw [h0]; rfl
      · exact readRows_of_le (by simp only [Config.memSize]; omega)
    rw [if_neg (by simpa [spritePastMemory] using h), hr]
    dsimp only
    split
    · rename_i he
      exact .inl ⟨he.1, he.2, rfl⟩
    · rename_i he
      exact .inr ⟨he, rfl⟩

end Sys2Proof.Machine
end

