-- ==== Sys2Proof/Laws/PerInstr.lean ====
section
/-! SUPPORT. Statements made for every constructor of `Instr`. `RowMatch`: the encoding of a well-formed instruction
lies in its own row of spec/opcode_table.json. -/

namespace Sys2Proof.Laws.RowMatch

/-- The instruction's encoding is covered by every row of the table that bears its mnemonic. -/
def Statement (i : Instr) : Prop :=
  i.wf = true → ∀ r ∈ opcodeRows, r.mnemonic = i.mnemonic → r.covers (encode i) = true

/-- A row of the table that bears the mnemonic is the one at that place. -/
theorem of_row {i : Instr} (r : OpcodeRow) (h : opcodeRows.filter (fun q => q.mnemonic == i.mnemonic) = [r])
    (hr : (encode i &&& r.mask).toNat = r.pattern.toNat) : Statement i := by
  intro _ q hq hm
  have : q ∈ opcodeRows.filter (fun q => q.mnemonic == i.mnemonic) :=
    List.mem_filter.2 ⟨hq, beq_iff_eq.2 hm⟩
  rw [h, List.mem_singleton] at this
  subst this
  exact (covers_iff _ _).2 hr

theorem formatA_F000 (op : BitVec 4) (a : Addr) : (formatA op a &&& 0xF000).toNat = op.toNat * 4096 := by
  have := a.isLt
  rw [mask_F000, formatA_toNat]
  omega

theorem formatXK_F000 (op : BitVec 4) (x : Reg) (k : Byte) : (formatXK op x k &&& 0xF000).toNat = op.toNat * 4096 := by
  have := k.isLt
  rw [mask_F000, formatXK_toNat]
  omega

theorem formatXYN_F000 (op : BitVec 4) (x y : Reg) (n : BitVec 4) :
    (formatXYN op x y n &&& 0xF000).toNat = op.toNat * 4096 := by
  have := n.isLt
  rw [mask_F000, formatXYN_toNat]
  omega

theorem formatXYN_F00F (op : BitVec 4) (x y : Reg) (n : BitVec 4) :
    (formatXYN op x y n &&& 0xF00F).toNat = op.toNat * 4096 + n.toNat := by
  have := n.isLt
  rw [mask_F00F, formatXYN_toNat]
  omega

theorem formatXK_F0FF (op : BitVec 4) (x : Reg) (k : Byte) :
    (formatXK op x k &&& 0xF0FF).toNat = op.toNat * 4096 + k.toNat := by
  have := k.isLt
  rw [mask_F0FF, formatXK_toNat]
  omega

theorem sys : Statement .sys := of_row _ rfl rfl

theorem ret : Statement .ret := of_row _ rfl rfl

theorem jp (a : Addr) : Statement (.jp a) := of_row _ rfl (formatA_F000 0x1 a)

theorem call (a : Addr) : Statement (.call a) := of_row _ rfl (formatA_F000 0x2 a)

theorem seImm (x : Reg) (k : Byte) : Statement (.seImm x k) := of_row _ rfl (formatXK_F000 0x3 x k)

theorem sneImm (x : Reg) (k : Byte) : Statement (.sneImm x k) := of_row _ rfl (formatXK_F000 0x4 x k)

theorem seReg (x y : Reg) : Statement (.seReg x y) := of_row _ rfl (formatXYN_F00F 0x5 x y 0x0)

theorem sneReg (x y : Reg) : Statement (.sneReg x y) := of_row _ rfl (formatXYN_F00F 0x9 x y 0x0)

theorem ldImm (x : Reg) (k : Byte) : Statement (.ldImm x k) := of_row _ rfl (formatXK_F000 0x6 x k)

theorem addImm (x : Reg) (k : Byte) : Statement (.addImm x k) := of_row _ rfl (formatXK_F000 0x7 x k)

theorem addReg (x y : Reg) : Statement (.addReg x y) := of_row _ rfl (formatXYN_F00F 0x8 x y 0x4)

theorem ldI (a : Addr) : Statement (.ldI a) := of_row _ rfl (formatA_F000 0xA a)

theorem rnd (x : Reg) (k : Byte) : Statement (.rnd x k) := of_row _ rfl (formatXK_F000 0xC x k)

theorem drw (x y : Reg) (n : Nib) : Statement (.drw x y n) := of_row _ rfl (formatXYN_F000 0xD x y (nibBits n))

theorem addI (x : Reg) : Statement (.addI x) := of_row _ rfl (formatXK_F0FF 0xF x 0x1E)

/-- No modelled row bears the name UNRECOGNIZED, so there is nothing to match. -/
theorem unrecognized (w : Word) : Statement (.unrecognized w) := by
  intro _ r hr hm
  have none_named : ∀ r ∈ opcodeRows, r.mnemonic ≠ "UNRECOGNIZED" := by decide
  exact absurd hm (none_named r hr)

end Sys2Proof.Laws.RowMatch
end

