-- ==== Sys2Proof/Laws/Run.lean ====
section
/-! SUPPORT. Runs of a machine behind the host's interface: one step taken off the front, and the induction every
invariant uses; and what a step returns, case by case. -/

namespace Sys2Proof.Laws

/-- A run whose first step answers `u` goes on from `u`. -/
theorem run_succ_of_next {M : Host.Core} {s u : M.State} (k : Nat) (h : M.step s = .next u) :
    M.run (k + 1) s = M.run k u := by
  rw [Host.Core.run, h]

/-- A run of one or more steps that answers a next state took a first step that did. -/
theorem run_succ_inv {M : Host.Core} {s t : M.State} {k : Nat} (h : M.run (k + 1) s = .next t) :
    ∃ u, M.step s = .next u ∧ M.run k u = .next t := by
  rw [Host.Core.run] at h
  split at h
  · exact ⟨_, by assumption, h⟩
  · cases h
  · cases h

/-- What holds of a state and is kept by every step holds after every run. -/
theorem run_induct {M : Host.Core} {P : M.State → Prop} (hstep : ∀ s t, P s → M.step s = .next t → P t) {k : Nat}
    {s t : M.State} (hs : P s) (h : M.run k s = .next t) : P t := by
  induction k generalizing s with
  | zero => cases h; exact hs
  | succ k ih =>
    obtain ⟨u, hu, hk⟩ := run_succ_inv h
    exact ih (hstep s u hs hu) hk

open Sys2Proof.Machine in
/-- Everything a step that answers `t` can return (R126, R127): Halted, NoMoreInstructions, Executed or Fatal. -/
theorem returned_cases {l : Config.FetchLimit} {execute : Instr → State → Host.Outcome State Fault Refusal} {s t : State}
    (h : cycle l execute s = .next t) :
    (∃ r, s.status = .halted r ∧ t = s ∧ returned l execute s = some (.halted r)) ∨
      (s.status = .running ∧ limitAddress l s < s.pc.toNat + 2 ∧ t = s.halt .noMoreInstructions ∧
        returned l execute s = some .noMoreInstructions) ∨
      ∃ w, w = wordOfBytes (s.mem.read s.pc.toNat) (s.mem.read (s.pc.toNat + 1)) ∧ s.status = .running ∧
        s.pc.toNat + 2 ≤ limitAddress l s ∧ execute (decode w) s.advancePc = .next t ∧
        ((t.status = .running ∧ returned l execute s = some (.executed w (decode w))) ∨
          ∃ r, t.status = .halted r ∧ returned l execute s = some (.fatal r)) := by
  have hl := limitAddress_le l s
  rcases cycle_cases l execute s with ⟨r, hr, hc⟩ | ⟨hr, hp, hc⟩ | ⟨hr, hp, hc⟩
  · cases hc.symm.trans h
    exact .inl ⟨r, hr, rfl, by simp [returned, hr]⟩
  · cases hc.symm.trans h
    exact .inr (.inl ⟨hr, hp, rfl, by simp [returned, hr, fetchWord_of_not_le (Nat.not_le.2 hp), hc]⟩)
  · refine .inr (.inr ⟨_, rfl, hr, hp, hc.symm.trans h, ?_⟩)
    have hf := fetchWord_of_le hp (by omega)
    cases ht : t.status with
    | running => exact .inl ⟨rfl, by simp [returned, hr, hf, h, ht]⟩
    | halted r => exact .inr ⟨r, rfl, by simp [returned, hr, hf, h, ht]⟩

end Sys2Proof.Laws
end

