-- ==== Sys2Proof/Tests/Slice0.lean ====
section
/-! SUPPORT. The model's own tests. Expected values come from spec/95_test_vectors.md (the vector is named) or from the
encodings of 30_encoding.md R76; then one witness for the hypotheses of each statement. -/

namespace Sys2Proof.Tests

open Sys2Proof.Machine

/-- The reset machine with a word at PC. -/
def at200 (w : Word) : State := State.reset.storeWordAtPc w

/-- What one step answers satisfies `p`. -/
def after (s : State) (p : State → Bool) : Bool :=
  match step s with
  | .next t => p t
  | _ => false

/-- What one step under given parameters and random byte answers satisfies `p`. -/
def afterUnder (c : Config.Params) (r : Byte) (s : State) (p : State → Bool) : Bool :=
  match stepUnder c r s with
  | .next t => p t
  | _ => false

/-- Some registers set. -/
def withV (s : State) (l : List (Reg × Byte)) : State := l.foldl (fun s p => s.writeV p.1 p.2) s

/-! ## Well-formedness and operand construction -/

-- ENC-9
theorem test_unrecognized_that_spells_a_jump_is_ill_formed : (Instr.unrecognized 0x1234).wf = false := by decide
theorem test_unrecognized_ret_word_is_ill_formed : (Instr.unrecognized 0x00EE).wf = false := by decide
theorem test_unrecognized_add_index_word_is_ill_formed : (Instr.unrecognized 0xF31E).wf = false := by decide
theorem test_unrecognized_b_group_is_well_formed : (Instr.unrecognized 0xB123).wf = true := by decide
-- ENC-10, ENC-11, ENC-12
theorem test_addr_from_1000_too_large : mkAddr 0x1000 = .error .addressTooLarge := by decide
theorem test_addr_from_fff : mkAddr 0xFFF = .ok 0xFFF := by decide
theorem test_reg_and_nib_from_16_too_large : mkReg 16 = .error .valueTooLarge ∧ mkNib 16 = .error .valueTooLarge := by decide
theorem test_byte_from_256_too_large : mkByte 256 = .error .valueTooLarge ∧ mkByte 255 = .ok 0xFF := by decide
theorem test_word_from_10000_too_large : mkWord 0x10000 = .error .valueTooLarge ∧ mkReg 15 = .ok 15 := by decide

/-! ## Decoding, each constructor from a word written out bit by bit (R76) -/

theorem test_decode_sys : decode 0b0000000011100000 = .sys := by decide
theorem test_decode_ret : decode 0b0000000011101110 = .ret := by decide
theorem test_decode_jp : decode 0b0001001000110100 = .jp 0x234 := by decide
theorem test_decode_call : decode 0b0010010001010110 = .call 0x456 := by decide
theorem test_decode_seImm : decode 0b0011101001000010 = .seImm 0xA 0x42 := by decide
theorem test_decode_sneImm : decode 0b0100111100000000 = .sneImm 0xF 0x00 := by decide
theorem test_decode_seReg : decode 0b0101000100100000 = .seReg 0x1 0x2 := by decide
theorem test_decode_sneReg : decode 0b1001101010110000 = .sneReg 0xA 0xB := by decide
theorem test_decode_ldImm : decode 0b0110110100010010 = .ldImm 0xD 0x12 := by decide
theorem test_decode_addImm : decode 0b0111000011111111 = .addImm 0x0 0xFF := by decide
theorem test_decode_addReg : decode 0b1000000100100100 = .addReg 0x1 0x2 := by decide
theorem test_decode_ldI : decode 0b1010001010100000 = .ldI 0x2A0 := by decide
theorem test_decode_rnd : decode 0b1100000011111111 = .rnd 0x0 0xFF := by decide
theorem test_decode_drw : decode 0b1101000100100011 = .drw 0x1 0x2 0x3 := by decide
theorem test_decode_addI : decode 0b1111010100011110 = .addI 0x5 := by decide
-- DEC-12, DEC-16, DEC-20, DEC-22, DEC-26, DEC-29
theorem test_decode_unrecognized :
    [0x5121, 0x8120, 0x9AB1, 0xB123, 0xE19E, 0xF01F].all (fun w => decode w == .unrecognized w) = true := by decide
theorem test_decode_bytes_big_endian : decodeBytes [0x12, 0x34, 0x56] = .ok (.jp 0x234, [0x56]) := by decide
theorem test_decode_one_byte_truncated : decodeBytes [0x12] = .error .truncated := by decide
theorem test_decode_table_word : decodeTableWord 16 0xD123 = some (.drw 1 2 3) := by decide
-- ENC-1 to ENC-8
theorem test_encode :
    [encode .sys, encode (.call 0x456), encode (.seReg 1 2), encode (.addReg 0xD 0xE), encode (.addI 3),
      encode (.drw 1 2 3), encode (.unrecognized 0xB123)] =
      [0x0000, 0x2456, 0x5120, 0x8DE4, 0xF31E, 0xD123, 0xB123] := by decide

/-! ## Rendering (S3, S4, DEC-9, DEC-21, DEC-25, DEC-27, DEC-30) -/

theorem test_render_shown_forms : render (.jp 0xABC) = "JP 0ABC" ∧ render (.drw 1 2 3) = "DRW V1, V2, 03" := by decide
theorem test_render_others :
    [0x3A42, 0xA2A0, 0xDFEF, 0xF51E, 0xFFFF].map (fun w => render (decode w)) =
      ["SE VA, 42", "LD I, 02A0", "DRW VF, VE, 0F", "ADD I, V5", "UNRECOGNIZED FFFF"] := by decide
theorem test_trace_line_of_clear_screen : traceLine 0x00E0 = "00E0 => SYS" := by decide

/-! ## Instructions, one step each -/

-- CTL-1
theorem test_sys : after (at200 0x0ABC) (fun t => t == { at200 0x0ABC with pc := 0x202 }) = true := by decide
-- CTL-3, CTL-12
theorem test_jp : after (at200 0x1ABC) (fun t => t.pc == 0xABC) = true := by decide
theorem test_jp_odd : after (at200 0x1203) (fun t => t.pc == 0x203) = true := by decide
-- CTL-5, CTL-7
theorem test_call : after (at200 0x2456) (fun t => t.stack[0] == 0x202 && t.sp == 1 && t.pc == 0x456) = true := by decide
theorem test_call_overflow :
    after { at200 0x2456 with sp := 16 }
      (fun t => t == { at200 0x2456 with sp := 16, pc := 0x202, status := .halted .stackOverflow }) = true := by decide
-- CTL-8, CTL-9
theorem test_ret :
    after { at200 0x00EE with sp := 1, stack := State.reset.stack.set 0 0x302 }
      (fun t => t.pc == 0x302 && t.sp == 0 && t.stack[0] == 0x302) = true := by decide
theorem test_ret_underflow :
    after (at200 0x00EE) (fun t => t == { at200 0x00EE with pc := 0x202, status := .halted .stackUnderflow }) = true := by
  decide
-- SKP-1, SKP-2
theorem test_seImm_skips : after (withV (at200 0x3342) [(3, 0x42)]) (fun t => t.pc == 0x204) = true := by decide
theorem test_seImm_goes_on : after (withV (at200 0x3342) [(3, 0x41)]) (fun t => t.pc == 0x202) = true := by decide
-- SKP-3, SKP-4
theorem test_sneImm_goes_on : after (withV (at200 0x4342) [(3, 0x42)]) (fun t => t.pc == 0x202) = true := by decide
theorem test_sneImm_skips : after (withV (at200 0x4342) [(3, 0x41)]) (fun t => t.pc == 0x204) = true := by decide
-- SKP-5, SKP-6
theorem test_seReg_skips : after (withV (at200 0x5120) [(1, 7), (2, 7)]) (fun t => t.pc == 0x204) = true := by decide
theorem test_seReg_goes_on : after (withV (at200 0x5120) [(1, 7), (2, 8)]) (fun t => t.pc == 0x202) = true := by decide
-- SKP-7, SKP-8
theorem test_sneReg_skips : after (withV (at200 0x9120) [(1, 7), (2, 8)]) (fun t => t.pc == 0x204) = true := by decide
theorem test_sneReg_goes_on : after (withV (at200 0x9120) [(1, 7), (2, 7)]) (fun t => t.pc == 0x202) = true := by decide
-- REG-1
theorem test_ldImm : after (at200 0x6D12) (fun t => t.readV 0xD == 0x12 && t.pc == 0x202) = true := by decide
-- REG-3, REG-5
theorem test_addImm_no_flag :
    after (withV (at200 0x70FF) [(0, 0x02), (0xF, 0x55)]) (fun t => t.readV 0 == 0x01 && t.readV VF == 0x55) = true := by
  decide
theorem test_addImm_on_flag : after (withV (at200 0x7F01) [(0xF, 0xFF)]) (fun t => t.readV VF == 0x00) = true := by decide
-- REG-6 (S6), REG-10a
theorem test_addReg_carry :
    after (withV (at200 0x8DE4) [(0xD, 0x12), (0xE, 0xFF)]) (fun t => t.readV 0xD == 0x11 && t.readV VF == 0x01) = true := by
  decide
theorem test_addReg_flag_written_last :
    after (withV (at200 0x8F14) [(0xF, 0x01), (1, 0xFF)]) (fun t => t.readV VF == 0x01) = true := by decide
-- REG-11, REG-14: the step's random byte is given
theorem test_rnd_masks :
    afterUnder Config.hardware 0xA7 (at200 0xC30F) (fun t => t.readV 3 == 0x07 && t.pc == 0x202) = true := by decide
theorem test_rnd_on_flag : afterUnder Config.hardware 0x5A (at200 0xCFF0) (fun t => t.readV VF == 0x50) = true := by decide
-- IDX-1
theorem test_ldI : after { at200 0xA2A0 with i := 0x1234 } (fun t => t.i == 0x02A0) = true := by decide
-- IDX-5, IDX-6
theorem test_addI_wraps : after { withV (at200 0xF01E) [(0, 2)] with i := 0xFFFF } (fun t => t.i == 0x0001) = true := by decide
theorem test_addI_keeps_flag :
    after { withV (at200 0xFF1E) [(0xF, 0x20)] with i := 0x0100 } (fun t => t.i == 0x0120 && t.readV VF == 0x20) = true := by
  decide

/-- Every pixel of `on` is set and none of `off`. -/
def shows (fb : Framebuffer) (on off : List (Fin 64 × Fin 32)) : Bool :=
  on.all (fun p => fb.get p.1 p.2) && off.all (fun p => !fb.get p.1 p.2)

/-- The state of vectors DRW-4, DRW-4c and DRW-4f. -/
def corner : State :=
  { withV (at200 0xD012) [(0, 62), (1, 31)] with
    i := 0x300, mem := ((at200 0xD012).mem.write 0x300 0xFF).write 0x301 0x81 }

-- DRW-4
theorem test_drw_wraps :
    after corner (fun t => shows t.fb
      [(62, 31), (63, 31), (0, 31), (1, 31), (2, 31), (3, 31), (4, 31), (5, 31), (62, 0), (5, 0)]
      [(61, 31), (6, 31), (63, 0), (0, 0), (4, 0), (6, 0), (62, 1), (62, 30)] &&
        t.readV VF == 0 && t.i == 0x300) = true := by decide
-- DRW-9
theorem test_drw_past_memory :
    after { withV (at200 0xD003) [(0xF, 1)] with i := 0xFFE }
      (fun t => t.status == .halted .spriteOutOfRange && t.readV VF == 1 && t.pc == 0x202) = true := by decide
-- DRW-4c, DRW-4f
theorem test_drw_clip :
    afterUnder ⟨.endOfMemory, .clip⟩ 0 corner (fun t =>
      shows t.fb [(62, 31), (63, 31)] [(0, 31), (5, 31), (62, 0), (5, 0)] && t.readV VF == 0 &&
        t.status == .running) = true := by decide
theorem test_drw_fault :
    (afterUnder ⟨.endOfMemory, .fault⟩ 0 corner (fun t =>
        t == { corner with pc := 0x202, status := .halted .drawOutOfBounds }) &&
      stepResultUnder ⟨.endOfMemory, .fault⟩ 0 corner == some (.fatal .drawOutOfBounds)) = true := by decide
-- UNR-1, UNR-5
theorem test_unrecognized :
    after (at200 0x8010)
      (fun t => t == { at200 0x8010 with pc := 0x202, status := .halted (.unrecognizedInstruction 0x8010) }) = true := by
  decide

/-! ## Fetch, load, run -/

-- FE-5
theorem test_fetch_big_endian :
    after { State.reset with mem := [(0x200, 0x12), (0x201, 0x34)] } (fun t => t.pc == 0x234) = true := by decide
-- FE-7, FE-8
theorem test_fetch_ends_at_fff :
    after { State.reset with pc := 0xFFF }
      (fun t => t == { State.reset with pc := 0xFFF, status := .halted .noMoreInstructions }) = true := by decide
theorem test_fetch_at_ffe : after { State.reset with pc := 0xFFE } (fun t => t.pc == 0x1000) = true := by decide
-- FE-4
theorem test_second_load_refused :
    (match load [] State.reset with
      | .ok s => load [0x12, 0x00] s == .refused .loadNotFresh
      | _ => false) = true := by decide
-- FE-12, P2
theorem test_run_three_polls :
    (match load [0x60, 0x00, 0x70, 0x01, 0x30, 0x05, 0x12, 0x02, 0x12, 0x08] State.reset with
      | .ok s =>
        match run [true, true, true, false] s with
        | .next r => r.ended == some .hostStop && r.presented.length == 3 && r.state.readV 0 == 1 &&
            r.state.pc == 0x206 && r.traceLines == ["6000 => LD V0, 00", "7001 => ADD V0, 01", "3005 => SE V0, 05"]
        | _ => false
      | _ => false) = true := by decide
-- FE-14
theorem test_end_of_program_limit :
    (match load [0x60, 0x01] State.reset with
      | .ok s => afterUnder ⟨.endOfProgram, .wrap⟩ 0 s (fun t =>
          t.readV 0 == 1 && stepResultUnder ⟨.endOfProgram, .wrap⟩ 0 t == some .noMoreInstructions && t.pc == 0x202)
      | _ => false) = true := by decide
-- 45_draw.md R230, 40_fetch_execute.md R130: a run under Fault ends at the draw over the edge, and presents nothing
theorem test_run_under_fault :
    (match runUnder ⟨.endOfMemory, .fault⟩ freeRng [] [true, true] corner with
      | .next r => r.ended == some .drawOutOfBounds && r.presented.isEmpty && r.trace.isEmpty
      | _ => false) = true := by decide
-- S9: a run with a seeded generator (here one that counts up from its seed): RND V0, FF twice
theorem test_seeded_run :
    (match load [0xC0, 0xFF, 0xC1, 0xFF] State.reset with
      | .ok s =>
        match runUnder Config.hardware (seededRng (fun g : Byte => (g, g + 1)) 0xA7) [] [true, true] s with
        | .next r => r.state.readV 0 == 0xA7 && r.state.readV 1 == 0xA8
        | _ => false
      | _ => false) = true := by decide

/-! ## Witnesses: for each statement with hypotheses, inputs that meet them together, each clause at a boundary -/

/-- A machine that fetches the word at 0x200. -/
theorem fetching_at200 (w : Word) : (at200 w).Fetching w := by
  refine ⟨rfl, (by decide : (0x200 : Word).toNat + 2 ≤ 0x1000), ?_⟩
  have hm : (at200 w).mem = State.reset.mem.writeBytes 0x200 [hiByte w, loByte w] := rfl
  have hp : (at200 w).pc.toNat = 0x200 := rfl
  have rd := Memory.read_writeBytes (m := State.reset.mem) (a := 0x200) [hiByte w, loByte w] rfl
    (by simp only [List.length_cons, List.length_nil]; decide)
  rw [hm, hp, rd, rd]
  simp only [Nat.le_refl, if_true, Nat.reduceAdd, Nat.reduceLeDiff, Nat.reduceSub, List.getD_cons_zero,
    List.getD_cons_succ, hiByte_toNat, loByte_toNat]
  omega

/-- A machine at the last fetchable address, where memory is all zero. -/
theorem fetching_at_ffe : ({ State.reset with pc := 0xFFE } : State).Fetching 0x0000 :=
  ⟨rfl, by decide, by decide⟩

theorem witness_DecodeEncodeRoundTrip : (Instr.unrecognized 0xF01F).wf = true ∧ (Instr.drw 0xF 0xF 0xF).wf = true := by
  decide
theorem witness_EncodeDecodeExceptSysGroup :
    ((0x0FFF : Word).toNat < 0x1000 ∧ (0x0FFF : Word) ≠ 0x00EE) ∧ ¬ (0x1000 : Word).toNat < 0x1000 := by decide
theorem witness_DecodeFollowsOpcodeTable :
    (⟨"JP", 0xF000, 0x1000⟩ ∈ opcodeRows ∧ OpcodeRow.covers ⟨"JP", 0xF000, 0x1000⟩ 0x1FFF = true) ∧
      modelledWord 0xFFFF = false ∧
      (⟨"SYS", 0xF000, 0x0000⟩ ∈ opcodeRows ∧ ⟨"RET", 0xFFFF, 0x00EE⟩ ∈ opcodeRows ∧
        OpcodeRow.covers ⟨"SYS", 0xF000, 0x0000⟩ 0x00EE = true ∧
        OpcodeRow.covers ⟨"RET", 0xFFFF, 0x00EE⟩ 0x00EE = true) := by decide
theorem witness_AddressConstructorFailsFast : mkAddr 0xFFF = .ok 0xFFF ∧ 0xFFF < 0x1000 := by decide
theorem witness_BoundedConstructorsFailFast :
    (mkReg 15 = .ok 15 ∧ 15 < 16) ∧ (mkByte 255 = .ok 255 ∧ 255 < 256) ∧ (mkWord 0xFFFF = .ok 0xFFFF ∧ 0xFFFF < 0x10000) := by
  decide
theorem witness_StepRunsDecodedInstruction :
    ((at200 0x1234).Fetching 0x1234 ∧ decode 0x1234 = .jp 0x234) ∧
      (({ State.reset with pc := 0xFFE } : State).Fetching 0x0000 ∧ decode 0x0000 = .sys) :=
  ⟨⟨fetching_at200 _, rfl⟩, fetching_at_ffe, rfl⟩
theorem witness_StepWithNothingToRun :
    ({ State.reset with status := .halted .hostStop } : State).status = .halted .hostStop ∧
      State.reset.status = .running ∧ 0x1000 < (0xFFF : Word).toNat + 2 := by decide
theorem witness_StepReturnsExecutedOrFatal :
    ((at200 0x1234).Fetching 0x1234 ∧ after (at200 0x1234) (fun t => t.status == .running) = true) ∧
      ((at200 0x00EE).Fetching 0x00EE ∧ after (at200 0x00EE) (fun t => t.status == .halted .stackUnderflow) = true) :=
  ⟨⟨fetching_at200 _, by decide⟩, fetching_at200 _, by decide⟩
theorem witness_StepKeepsMemory :
    (∃ t, step (at200 0x2456) = .next t) ∧ ∃ t : State, Host.Core.run Sys2Proof.core 3 (at200 0x2456) = .next t :=
  ⟨⟨_, rfl⟩, _, rfl⟩
theorem witness_StepKeepsInvariant : ∃ t, (at200 0x2456).Inv ∧ step (at200 0x2456) = .next t :=
  ⟨_, ⟨by decide, fun j h => absurd h (Nat.not_lt_zero _), by decide⟩, rfl⟩
theorem witness_LoadedMachineHasInvariant :
    ∃ s t : State, load [0x12, 0x00] State.reset = .ok s ∧ Host.Core.run Sys2Proof.core 2 s = .next t :=
  ⟨_, _, rfl, rfl⟩
theorem witness_HaltedForEver :
    ({ State.reset with status := .halted .drawOutOfBounds } : State).status = .halted .drawOutOfBounds := rfl
theorem witness_StatusAfterStep :
    ((at200 0x00EE).Fetching 0x00EE ∧ ∃ t, step (at200 0x00EE) = .next t) ∧
      (({ at200 0x2456 with sp := 16 } : State).Fetching 0x2456 ∧ ∃ t, step { at200 0x2456 with sp := 16 } = .next t) ∧
      ((at200 0xFFFF).Fetching 0xFFFF ∧ ∃ t, step (at200 0xFFFF) = .next t) ∧
      (({ at200 0xD001 with i := 0x1000 } : State).Fetching 0xD001 ∧ ∃ t, step { at200 0xD001 with i := 0x1000 } = .next t) :=
  ⟨⟨fetching_at200 _, _, rfl⟩, ⟨⟨rfl, by decide, by decide⟩, _, rfl⟩, ⟨fetching_at200 _, _, rfl⟩,
    ⟨rfl, by decide, by decide⟩, _, rfl⟩
theorem witness_FatalWritesNothingElse :
    ∃ t, (at200 0x8010).Fetching 0x8010 ∧ step (at200 0x8010) = .next t ∧
      t.status = .halted (.unrecognizedInstruction 0x8010) :=
  ⟨_, fetching_at200 _, rfl, rfl⟩
theorem witness_SafeRunsStaySafe : 0 ≤ 1 ∧ RunsSafely 1 (at200 0x1200) :=
  ⟨by decide, _, rfl, fun ⟨_, h, _⟩ => nomatch h⟩
theorem witness_SysChangesNothing :
    (at200 0x0FFF).Fetching 0x0FFF ∧ (0x0FFF : Word).toNat < 0x1000 ∧ (0x0FFF : Word) ≠ 0x00EE :=
  ⟨fetching_at200 _, by decide, by decide⟩
theorem witness_RetPopsOrUnderflows :
    ({ State.reset with sp := 16 } : State).sp = (15 : Fin 16).succ ∧ State.reset.sp = 0 := by decide
theorem witness_JpSetsPc :
    ((0x1FFF : Word).toNat = 0x1000 + (0xFFF : Addr).toNat) ∧
      ((at200 0x1200).Fetching 0x1200 ∧ (0x1200 : Word).toNat = 0x1000 + (0x200 : Addr).toNat ∧
        (at200 0x1200).pc = (0x200 : Addr).setWidth 16) ∧
      ∃ t, State.reset.status = .running ∧ exec (.jp 0xFFF) State.reset = .next t :=
  ⟨by decide, ⟨fetching_at200 _, by decide, by decide⟩, _, rfl, rfl⟩
theorem witness_CallPushesOrOverflows :
    (0x2FFF : Word).toNat = 0x2000 + (0xFFF : Addr).toNat ∧
      ({ State.reset with sp := 15 } : State).sp = (15 : Fin 16).castSucc ∧ ({ State.reset with sp := 16 } : State).sp = 16 := by
  decide
theorem witness_CallThenRetComesBack :
    ((at200 0x2300).Fetching 0x2300 ∧ decode 0x2300 = .call 0x300 ∧ (at200 0x2300).sp.val < 16) ∧
      ∃ t u : State, step (at200 0x2300) = .next t ∧ u.Fetching 0x00EE ∧ u.sp = t.sp ∧ u.stack[0] = t.stack[0] ∧
        u.stack ≠ t.stack :=
  ⟨⟨fetching_at200 _, by decide, by decide⟩, _,
    { at200 0x00EE with sp := 1, stack := (State.reset.stack.set 0 0x202).set 1 0x302 },
    rfl, ⟨rfl, by decide, by decide⟩, by decide, by decide, by decide⟩
theorem witness_SkipsOnImmediate :
    (0x3FFF : Word).toNat = 0x3000 + (0xF : Reg).val * 0x100 + (0xFF : Byte).toNat ∧
      (0x4000 : Word).toNat = 0x4000 + (0x0 : Reg).val * 0x100 + (0x00 : Byte).toNat := by decide
theorem witness_SkipsOnRegister :
    (0x5FF0 : Word).toNat = 0x5000 + (0xF : Reg).val * 0x100 + (0xF : Reg).val * 0x10 ∧
      (0x9000 : Word).toNat = 0x9000 + (0x0 : Reg).val * 0x100 + (0x0 : Reg).val * 0x10 ∧
      ((0x5001 : Word).toNat / 0x1000 = 0x5 ∧ (0x5001 : Word).toNat % 0x10 ≠ 0) ∧
      ((0x9FFF : Word).toNat / 0x1000 = 0x9 ∧ (0x9FFF : Word).toNat % 0x10 ≠ 0) := by decide

/-- The machine at 0xFFE with a word there. -/
def atFfe (w : Word) : State := ({ State.reset with pc := 0xFFE } : State).storeWordAtPc w

theorem witness_TakenSkipIgnoresSkippedWord :
    ((atFfe 0x3000).Fetching 0x3000 ∧ decode 0x3000 = .seImm 0 0 ∧ (atFfe 0x3000).readV 0 = 0 ∧
        (atFfe 0x3000).pc = 0xFFE) ∧
      ((atFfe 0x4001).Fetching 0x4001 ∧ decode 0x4001 = .sneImm 0 1 ∧ (atFfe 0x4001).readV 0 ≠ 1) ∧
      ((atFfe 0x5000).Fetching 0x5000 ∧ decode 0x5000 = .seReg 0 0) ∧
      ((withV (atFfe 0x9010) [(1, 1)]).Fetching 0x9010 ∧ decode 0x9010 = .sneReg 0 1 ∧
        (withV (atFfe 0x9010) [(1, 1)]).readV 0 ≠ (withV (atFfe 0x9010) [(1, 1)]).readV 1) :=
  ⟨⟨⟨rfl, by decide, by decide⟩, by decide, by decide, by decide⟩, ⟨⟨rfl, by decide, by decide⟩, by decide, by decide⟩,
    ⟨⟨rfl, by decide, by decide⟩, by decide⟩, ⟨rfl, by decide, by decide⟩, by decide, by decide⟩
theorem witness_LdImmLoadsByte :
    (0x6FFF : Word).toNat = 0x6000 + VF.val * 0x100 + (0xFF : Byte).toNat ∧ (0 : Reg) ≠ VF := by decide
theorem witness_AddImmWrapsWithoutFlag :
    (0x7FFF : Word).toNat = 0x7000 + VF.val * 0x100 + (0xFF : Byte).toNat ∧ (0xE : Reg) ≠ VF := by decide
theorem witness_AddRegWritesSumThenCarry :
    (0x8FF4 : Word).toNat = 0x8004 + VF.val * 0x100 + VF.val * 0x10 ∧
      ((0x8005 : Word).toNat / 0x1000 = 0x8 ∧ (0x8005 : Word).toNat % 0x10 ≠ 4) ∧ (0xE : Reg) ≠ VF := by decide
theorem witness_LdISetsIndex : (0xAFFF : Word).toNat = 0xA000 + (0xFFF : Addr).toNat := by decide
theorem witness_AddIWrapsWithoutFlag :
    (0xFF1E : Word).toNat = 0xF01E + VF.val * 0x100 ∧
      ((0xF01F : Word).toNat / 0x1000 = 0xF ∧ (0xF01F : Word).toNat % 0x100 ≠ 0x1E) := by decide
theorem witness_RndMasksDrawnByte :
    (0xCFFF : Word).toNat = 0xC000 + VF.val * 0x100 + (0xFF : Byte).toNat ∧ (0x7F : Byte).getLsbD 7 = false := by decide

/-- A machine with a one-row sprite 0x80 at 0xFFF and V0 = V1 = 0. -/
def topSprite : State := { State.reset with i := 0xFFF, mem := [(0xFFF, 0x80)] }

theorem topSprite_covers : topSprite.wrapCell 0 1 1 0 0 :=
  ⟨0, 0, ⟨0, 0, by decide, by decide, by decide, by decide, by decide⟩, by decide, by decide⟩

theorem witness_DrwXorsSprite :
    ((0xDFFF : Word).toNat = 0xD000 + VF.val * 0x100 + VF.val * 0x10 + (0xF : Nib).val) ∧
      (0 : Nib).val = 0 ∧ topSprite.i.toNat + (1 : Nib).val - 1 ≤ 0xFFF ∧
      (∃ tx ty, ({ topSprite with fb := topSprite.fb.set 0 0 true } : State).fb.get tx ty = true ∧
        ({ topSprite with fb := topSprite.fb.set 0 0 true } : State).wrapCell 0 1 1 tx ty) ∧
      ¬ ∃ tx ty, topSprite.fb.get tx ty = true ∧ topSprite.wrapCell 0 1 1 tx ty :=
  ⟨by decide, by decide, by decide, ⟨0, 0, by decide, topSprite_covers⟩, fun ⟨tx, ty, h, _⟩ => by
    rw [show topSprite.fb = Framebuffer.blank from rfl, Framebuffer.get_blank] at h
    cases h⟩
theorem witness_DrwPastMemoryIsFatal : 0 < (2 : Nib).val ∧ 0xFFF < topSprite.i.toNat + (2 : Nib).val - 1 := by decide
theorem witness_DoubleDrawRestores :
    ∃ t, topSprite.i.toNat + (1 : Nib).val - 1 ≤ 0xFFF ∧ exec (.drw 0 1 1) topSprite = .next t ∧
      t.readV 0 = topSprite.readV 0 ∧ t.readV 1 = topSprite.readV 1 :=
  ⟨_, by decide, rfl, by decide, by decide⟩
theorem witness_EdgePoliciesClipAndFault :
    (topSprite.i.toNat + (1 : Nib).val - 1 ≤ 0xFFF ∧ topSprite.spritePixel 0 1 1 (0 : Fin 64).val (0 : Fin 32).val) ∧
      (∃ px py, (topSprite.writeV 0 64).spritePixel 0 1 1 px py ∧ (64 ≤ px ∨ 32 ≤ py)) ∧
      ¬ ∃ px py, topSprite.spritePixel 0 1 0 px py ∧ (64 ≤ px ∨ 32 ≤ py) :=
  ⟨⟨by decide, 0, 0, by decide, by decide, by decide, by decide, by decide⟩,
    ⟨64, 0, ⟨0, 0, by decide, by decide, by decide, by decide, by decide⟩, by decide⟩,
    fun ⟨_, _, ⟨_, _, h, _⟩, _⟩ => absurd h (Nat.not_lt_zero _)⟩
theorem witness_UnrecognizedIsFatal : (at200 0xE19E).Fetching 0xE19E ∧ decode 0xE19E = .unrecognized 0xE19E :=
  ⟨fetching_at200 _, by decide⟩
theorem witness_RegisterFrame :
    ∃ t, exec (.addReg 0 1) (withV State.reset [(0, 0xFF), (1, 0x01)]) = .next t ∧ (2 : Reg) ∉ writesV (.addReg 0 1) ∧
      t.readV VF ≠ (withV State.reset [(0, 0xFF), (1, 0x01)]).readV VF :=
  ⟨_, rfl, by decide, by decide⟩
theorem witness_SpecialStateFrame :
    ∃ t, exec (.call 0x300) State.reset = .next t ∧ (∀ a, Instr.call 0x300 ≠ .ldI a) ∧ (∀ x, Instr.call 0x300 ≠ .addI x) ∧
      (15 : Fin 16).val ≠ State.reset.sp.val ∧ Instr.sys ≠ .ret ∧ (∀ a, Instr.sys ≠ .call a) ∧
      (∀ x y n, Instr.sys ≠ .drw x y n) ∧ ∀ x k, Instr.sys ≠ .rnd x k :=
  ⟨_, rfl, nofun, nofun, by decide, nofun, nofun, nofun, nofun⟩
theorem witness_PcFrame :
    (∃ t, exec .sys State.reset = .next t ∧ setsPc .sys = false) ∧ (∃ t, exec (.seImm 0 0) State.reset = .next t) ∧
      (∃ t, exec (.jp 0xFFF) State.reset = .next t) ∧ (∃ t, exec (.call 0xFFF) State.reset = .next t) ∧
      ∃ t, exec .ret { State.reset with sp := 16 } = .next t :=
  ⟨⟨_, rfl, rfl⟩, ⟨_, rfl⟩, ⟨_, rfl⟩, ⟨_, rfl⟩, _, rfl⟩
theorem witness_OnlyRndSeesRandomByte :
    ∃ t, (∀ x k, Instr.drw 0 1 1 ≠ .rnd x k) ∧ exec (.drw 0 1 1) topSprite = .next t :=
  ⟨_, nofun, rfl⟩
theorem witness_XorFlipsOneCell : ((63, 31) : Fin 64 × Fin 32) ≠ (0, 0) := by decide
theorem witness_PhysicalBlocksAreUniform :
    (639 : Fin 640).val / 10 = (63 : Fin 64).val ∧ (319 : Fin 320).val / 10 = (31 : Fin 32).val ∧
      (630 : Fin 640).val / 10 = (639 : Fin 640).val / 10 ∧ (310 : Fin 320).val / 10 = (319 : Fin 320).val / 10 := by decide
theorem witness_LoadCopiesProgram :
    (List.replicate 0xDFF (0xAB : Byte)).length ≤ 0xDFF ∧ 0xDFE < (List.replicate 0xDFF (0xAB : Byte)).length ∧
      0xDFF < (List.replicate 0xE00 (0xAB : Byte)).length :=
  ⟨Nat.le_of_eq List.length_replicate, Nat.lt_of_lt_of_eq (by decide) List.length_replicate.symm,
    Nat.lt_of_lt_of_eq (by decide) List.length_replicate.symm⟩
theorem witness_LoadBoundary :
    (List.replicate 0xDFF (0xAB : Byte)).length = 0xFFF - 0x200 ∧
      (List.replicate 0xE00 (0xAB : Byte)).length = 0xFFF - 0x200 + 1 :=
  ⟨List.length_replicate, List.length_replicate⟩
theorem witness_LoadOnlyOnceAndFirst :
    (∃ s t : State, load [] State.reset = .ok s ∧ Host.Core.run Sys2Proof.core 0 s = .next t) ∧
      ∃ t : State, Host.Core.run Sys2Proof.core (0 + 1) State.reset = .next t :=
  ⟨⟨_, _, rfl, rfl⟩, _, rfl⟩
theorem witness_PlacedWordIsFetched :
    ({ State.reset with pc := 0xFFE } : State).status = .running ∧ (0xFFE : Word).toNat + 2 ≤ 0x1000 ∧
      State.reset.mem.wf = true := by decide
theorem witness_RunHostStopAndHalted :
    State.reset.status = .running ∧
      ({ State.reset with status := .halted .stackOverflow } : State).status = .halted .stackOverflow := by decide
theorem witness_RunFollowsSteps :
    ∃ u : State, 0 < 1 ∧ Host.Core.run Sys2Proof.core 0 (at200 0x1200) = .next u ∧
      stepResult u = some (.executed 0x1200 (.jp 0x200)) :=
  ⟨_, by decide, rfl, by decide⟩
theorem witness_EndOfProgramLimit :
    (⟨.endOfProgram, .clip⟩ : Config.Params).fetchLimit = .endOfProgram ∧
      ({ State.reset with progLen := 2 } : State).pc.toNat + 2 ≤ 0x200 + ({ State.reset with progLen := 2 } : State).progLen.val ∧
      0x200 + State.reset.progLen.val < State.reset.pc.toNat + 2 ∧ State.reset.status = .running ∧
      ({ State.reset with status := .halted .hostStop } : State).status = .halted .hostStop := by decide
theorem witness_StepUnderGivenParameters :
    (corner.Fetching 0xD012 ∧ decode 0xD012 = .drw 0 1 2 ∧ corner.i.toNat + (2 : Nib).val - 1 ≤ 0xFFF ∧
        ∃ px py, corner.spritePixel 0 1 2 px py ∧ (64 ≤ px ∨ 32 ≤ py)) ∧
      ((at200 0xC30F).Fetching 0xC30F ∧ decode 0xC30F = .rnd 3 0x0F) ∧
      (({ at200 0x1200 with progLen := 2 } : State).Fetching 0x1200 ∧
        ({ at200 0x1200 with progLen := 2 } : State).pc.toNat + 2 ≤
          0x200 + ({ at200 0x1200 with progLen := 2 } : State).progLen.val) :=
  ⟨⟨⟨rfl, by decide, by decide⟩, by decide, by decide, 64, 31, ⟨0, 2, by decide, by decide, by decide, by decide, by decide⟩,
      by decide⟩, ⟨fetching_at200 _, by decide⟩, ⟨rfl, by decide, by decide⟩, by decide⟩
theorem witness_RunUnderGivenParameters :
    (corner.status = .running ∧ (∃ t, stepUnder ⟨.endOfMemory, .clip⟩ (freeRng [] corner) corner = .next t) ∧
        stepResultUnder ⟨.endOfMemory, .clip⟩ (freeRng [] corner) corner = some (.executed 0xD012 (.drw 0 1 2))) ∧
      ((∃ t, stepUnder ⟨.endOfMemory, .fault⟩ (freeRng [] corner) corner = .next t) ∧
        stepResultUnder ⟨.endOfMemory, .fault⟩ (freeRng [] corner) corner = some (.fatal .drawOutOfBounds)) ∧
      (∃ t, stepUnder ⟨.endOfProgram, .wrap⟩ 0 State.reset = .next t) ∧
        stepResultUnder ⟨.endOfProgram, .wrap⟩ 0 State.reset = some .noMoreInstructions :=
  ⟨⟨rfl, ⟨_, rfl⟩, by decide⟩, ⟨⟨_, rfl⟩, by decide⟩, ⟨_, rfl⟩, by decide⟩

end Sys2Proof.Tests
end

section
/-! SUPPORT. The step and the run under given parameters (00_scope.md R9): what a step is in each case of its fetch, that
every step answers a next state, and the equations of the run's loop; from these, the statements of 00_scope.md. -/

namespace Sys2Proof.Machine

section Cycle

variable {l : Config.FetchLimit} {execute execute' : Instr → State → Host.Outcome State Fault Refusal} {s t : State}

/-- A halted machine is left alone (R128). -/
theorem cycle_of_halted {q : HaltReason} (hs : s.status = .halted q) : cycle l execute s = .next s := by
  simp only [cycle, hs]

/-- A step on a halted machine returns the recorded reason (R127). -/
theorem returned_of_halted {q : HaltReason} (hs : s.status = .halted q) :
    returned l execute s = some (.halted q) := by
  simp only [returned, hs]

/-- Past the limit a running machine halts with NoMoreInstructions, PC kept (R124). -/
theorem cycle_of_limit_lt (hs : s.status = .running) (hpc : limitAddress l s < s.pc.toNat + 2) :
    cycle l execute s = .next (s.halt .noMoreInstructions) := by
  simp only [cycle, hs, fetchWord_of_not_le (Nat.not_le.2 hpc)]

theorem returned_of_limit_lt (hs : s.status = .running) (hpc : limitAddress l s < s.pc.toNat + 2) :
    returned l execute s = some .noMoreInstructions := by
  simp only [returned, hs, fetchWord_of_not_le (Nat.not_le.2 hpc), cycle_of_limit_lt hs hpc]

/-- Below the limit a running machine executes the word at PC (R125, R126). -/
theorem cycle_of_le_limit (hs : s.status = .running) (hpc : s.pc.toNat + 2 ≤ limitAddress l s) :
    cycle l execute s =
      execute (decode (wordOfBytes (s.mem.read s.pc.toNat) (s.mem.read (s.pc.toNat + 1)))) s.advancePc := by
  simp only [cycle, hs, fetchWord_of_le hpc (hpc.trans (limitAddress_le l s))]

/-- A step depends on `execute` only through its meanings in the advanced state. -/
theorem cycle_congr (h : ∀ i, execute i s.advancePc = execute' i s.advancePc) :
    cycle l execute s = cycle l execute' s := by
  simp only [cycle, h]

theorem returned_congr (h : ∀ i, execute i s.advancePc = execute' i s.advancePc) :
    returned l execute s = returned l execute' s := by
  simp only [returned, cycle_congr h]

end Cycle

section Fetching

variable {l : Config.FetchLimit} {execute : Instr → State → Host.Outcome State Fault Refusal} {s t : State} {w : Word}

theorem State.Fetching.wordOfBytes_eq (hf : s.Fetching w) :
    wordOfBytes (s.mem.read s.pc.toNat) (s.mem.read (s.pc.toNat + 1)) = w :=
  BitVec.eq_of_toNat_eq ((wordOfBytes_toNat _ _).trans hf.bytes.symm)

theorem State.Fetching.le_limitAddress (hf : s.Fetching w)
    (hl : l = .endOfProgram → s.pc.toNat + 2 ≤ 0x200 + s.progLen.val) : s.pc.toNat + 2 ≤ limitAddress l s := by
  cases l with
  | endOfMemory => exact hf.inMemory
  | endOfProgram => exact hl rfl

theorem State.Fetching.fetchWord_eq (hf : s.Fetching w) (hpc : s.pc.toNat + 2 ≤ limitAddress l s) :
    fetchWord l s = .ok (some w) := by
  rw [fetchWord_of_le hpc hf.inMemory, hf.wordOfBytes_eq]

/-- Where `w` is fetched below the limit, the step executes it with PC advanced (R125, R126). -/
theorem State.Fetching.cycle_eq (hf : s.Fetching w) (hpc : s.pc.toNat + 2 ≤ limitAddress l s) :
    cycle l execute s = execute (decode w) s.advancePc := by
  rw [cycle_of_le_limit hf.running hpc, hf.wordOfBytes_eq]

/-- A step that leaves the machine running returns the word it executed. -/
theorem State.Fetching.returned_executed (hf : s.Fetching w) (hpc : s.pc.toNat + 2 ≤ limitAddress l s)
    (hc : cycle l execute s = .next t) (ht : t.status = .running) :
    returned l execute s = some (.executed w (decode w)) := by
  simp only [returned, hf.running, hf.fetchWord_eq hpc, hc, ht]

/-- A step whose execution halts the machine returns the fatal reason. -/
theorem State.Fetching.returned_fatal {q : HaltReason} (hf : s.Fetching w)
    (hpc : s.pc.toNat + 2 ≤ limitAddress l s) (hc : cycle l execute s = .next t) (ht : t.status = .halted q) :
    returned l execute s = some (.fatal q) := by
  simp only [returned, hf.running, hf.fetchWord_eq hpc, hc, ht]

end Fetching

/-- DRW answers a next state under every edge policy: it reads only rows its range check let through (R231). -/
theorem drwUnder_next (e : Config.DrawEdge) (x y : Reg) (n : Nib) (s : State) :
    ∃ t, drwUnder e x y n s = .next t := by
  rcases drwUnder_cases e x y n s with ⟨_, _, h⟩ | ⟨_, _, _, ⟨_, _, h⟩ | ⟨_, h⟩⟩ <;> exact ⟨_, h⟩

/-- Every instruction answers a next state in every state; a fatal condition is one (R262). -/
theorem exec_next (i : Instr) (s : State) : ∃ t, exec i s = .next t := by
  cases i with
  | ret =>
    rcases s.pop_cases with ⟨_, _, _, h⟩ | ⟨_, h⟩
    · exact ⟨_, by rw [exec, execRet, h]⟩
    · exact ⟨_, by rw [exec, execRet, h]; rfl⟩
  | call a =>
    rcases State.push_cases (s := s) s.pc with ⟨_, h⟩ | ⟨_, h⟩
    · exact ⟨_, by rw [exec, execCall, h]⟩
    · exact ⟨_, by rw [exec, execCall, h]; rfl⟩
  | drw x y n => exact drwUnder_next Config.drawEdge x y n s
  | _ => exact ⟨_, rfl⟩

theorem execUnder_next (e : Config.DrawEdge) (r : Byte) (i : Instr) (s : State) :
    ∃ t, execUnder e r i s = .next t := by
  rcases execUnder_cases e r i s with ⟨x, y, n, _, h⟩ | ⟨x, k, _, h⟩ | ⟨_, _, h⟩
  · exact h ▸ drwUnder_next e x y n s
  · exact ⟨_, h⟩
  · exact h ▸ exec_next i s

/-- A step around a total `execute` is total (R127). -/
theorem cycle_next {l : Config.FetchLimit} {execute : Instr → State → Host.Outcome State Fault Refusal}
    (he : ∀ i s, ∃ t, execute i s = .next t) (s : State) : ∃ t, cycle l execute s = .next t := by
  rcases cycle_cases l execute s with ⟨_, _, h⟩ | ⟨_, _, h⟩ | ⟨_, _, h⟩
  · exact ⟨_, h⟩
  · exact ⟨_, h⟩
  · exact h ▸ he _ _

theorem stepUnder_next (p : Config.Params) (r : Byte) (s : State) : ∃ t, stepUnder p r s = .next t :=
  cycle_next (execUnder_next p.drawEdge r) s

/-- `exec` is `execute(i, r)` with this hardware's edge policy and the free byte at the draw counter (R127): its DRW is
`drwUnder` and its RND `rndUnder` at these values, and every other arm is `exec` itself. -/
theorem exec_eq_execUnder (i : Instr) (s : State) :
    exec i s = execUnder .wrap (Config.rngByte s.rngDraws) i s := by
  cases i <;> rfl

/-- The rows DRW reads have a set bit outside the screen exactly when some sprite pixel lies there (R224, R230). -/
theorem State.spriteOutside_iff_spritePixel (s : State) (x y : Reg) (n : Nib) :
    spriteOutside (s.coordinate x) (s.coordinate y) ((List.range n.val).map fun j => s.mem.read (s.i.toNat + j)) = true ↔
      ∃ px py, s.spritePixel x y n px py ∧ (64 ≤ px ∨ 32 ≤ py) := by
  have row {dy : Nat} (hdy : dy < n.val) :
      ((List.range n.val).map fun j => s.mem.read (s.i.toNat + j)).getD dy 0 = s.mem.read (s.i.toNat + dy) := by
    simp [hdy]
  rw [spriteOutside_iff]
  simp only [List.length_map, List.length_range]
  constructor
  · rintro ⟨dy, dx, hdy, hdx, hbit, hout⟩
    rw [row hdy] at hbit
    exact ⟨_, _, ⟨dy, dx, hdy, hdx, hbit, rfl, rfl⟩, hout⟩
  · rintro ⟨_, _, ⟨dy, dx, hdy, hdx, hbit, rfl, rfl⟩, hout⟩
    exact ⟨dy, dx, hdy, hdx, by rw [row hdy]; exact hbit, hout⟩

/-- Under `Fault` a sprite inside memory with a pixel outside the screen raises DrawOutOfBounds (R230). -/
theorem drwUnder_fault_of_outside {x y : Reg} {n : Nib} {s : State} (hmem : n.val = 0 ∨ s.i.toNat + n.val - 1 ≤ 0xFFF)
    (hout : ∃ px py, s.spritePixel x y n px py ∧ (64 ≤ px ∨ 32 ≤ py)) :
    drwUnder .fault x y n s = .next (s.halt .drawOutOfBounds) := by
  rcases drwUnder_cases .fault x y n s with ⟨hn, hpast, _⟩ | ⟨_, _, rfl, ⟨_, _, h⟩ | ⟨hin, _⟩⟩
  · omega
  · exact h
  · exact absurd ⟨rfl, (s.spriteOutside_iff_spritePixel x y n).2 hout⟩ hin

section Run

variable {p : Config.Params} {rng : Rng} {past : List State} {polls : List Bool} {s t : State}

/-- A machine already halted ends the run with its reason, whatever the poll (R131). -/
theorem runUnder_of_halted {cont : Bool} {q : HaltReason} (hs : s.status = .halted q) :
    runUnder p rng past (cont :: polls) s = .next ⟨s, [], [], some q⟩ := by
  simp only [runUnder, hs]

/-- A poll answered false halts a running machine before any step (R131). -/
theorem runUnder_hostStop (hs : s.status = .running) :
    runUnder p rng past (false :: polls) s = .next ⟨s.halt .hostStop, [], [], some .hostStop⟩ := by
  simp [runUnder, hs]

/-- After an executed step the run presents the view and goes on from the state the step left (R130, R229). -/
theorem runUnder_executed {w : Word} {i : Instr} {r : RunResult} (hs : s.status = .running)
    (hstep : stepUnder p (rng past s) s = .next t) (hres : stepResultUnder p (rng past s) s = some (.executed w i))
    (hrest : runUnder p rng (s :: past) polls t = .next r) :
    runUnder p rng past (true :: polls) s =
      .next ⟨r.state, t.fb.view :: r.presented, (w, i) :: r.trace, r.ended⟩ := by
  simp [runUnder, hs, hstep, hres, hrest]

/-- After a step that executed nothing to its end the run ends with the reason that step recorded (R130). -/
theorem runUnder_ended {res : StepResult} (hs : s.status = .running)
    (hstep : stepUnder p (rng past s) s = .next t) (hres : stepResultUnder p (rng past s) s = some res)
    (hne : ∀ w i, res ≠ .executed w i) :
    runUnder p rng past (true :: polls) s = .next ⟨t, [], [], t.status.reason⟩ := by
  cases res with
  | executed w i => exact absurd rfl (hne w i)
  | noMoreInstructions => simp [runUnder, hs, hstep, hres]
  | fatal q => simp [runUnder, hs, hstep, hres]
  | halted q => simp [runUnder, hs, hstep, hres]

/-- What a run on `n` polls gives: one presented buffer for each traced instruction, at most one for each poll. -/
def RunResult.Bounded (r : RunResult) (n : Nat) : Prop :=
  r.presented.length = r.trace.length ∧ r.trace.length ≤ n

theorem RunResult.bounded_of_nothing_traced (s : State) (ended : Option HaltReason) (n : Nat) :
    RunResult.Bounded ⟨s, [], [], ended⟩ n :=
  ⟨rfl, Nat.zero_le n⟩

theorem RunResult.Bounded.cons {r : RunResult} {n : Nat} (hr : r.Bounded n) (b : PhysicalBuffer) (wi : Word × Instr) :
    RunResult.Bounded ⟨r.state, b :: r.presented, wi :: r.trace, r.ended⟩ (n + 1) := by
  obtain ⟨hlen, hle⟩ := hr
  exact ⟨congrArg (· + 1) hlen, Nat.succ_le_succ hle⟩

/-- Every run answers, by induction on the polls: a step either goes on with one poll fewer or ends the run. -/
theorem runUnder_next (p : Config.Params) (rng : Rng) (past : List State) (polls : List Bool) (s : State) :
    ∃ r, runUnder p rng past polls s = .next r ∧ r.Bounded polls.length := by
  induction polls generalizing past s with
  | nil => exact ⟨_, rfl, RunResult.bounded_of_nothing_traced ..⟩
  | cons cont polls ih =>
    have ends {u : State} {e : Option HaltReason}
        (h : runUnder p rng past (cont :: polls) s = .next ⟨u, [], [], e⟩) :
        ∃ r, runUnder p rng past (cont :: polls) s = .next r ∧ r.Bounded (cont :: polls).length :=
      ⟨_, h, RunResult.bounded_of_nothing_traced ..⟩
    cases hs : s.status with
    | halted q => exact ends (runUnder_of_halted hs)
    | running =>
      cases cont with
      | false => exact ends (runUnder_hostStop hs)
      | true =>
        obtain ⟨t, ht⟩ := stepUnder_next p (rng past s) s
        rcases Laws.returned_cases ht with ⟨q, _, _, hres⟩ | ⟨_, _, _, hres⟩ | ⟨w, _, _, _, _, ⟨_, hres⟩ | ⟨q, _, hres⟩⟩
        · exact ends (runUnder_ended hs ht hres nofun)
        · exact ends (runUnder_ended hs ht hres nofun)
        · obtain ⟨r, hr, hb⟩ := ih (s :: past) t
          exact ⟨_, runUnder_executed hs ht hres hr, hb.cons _ _⟩
        · exact ends (runUnder_ended hs ht hres nofun)

/-- A step that returns NoMoreInstructions or a fatal reason was taken by a running machine and recorded the reason. -/
theorem status_of_stepResultUnder_ending {b : Byte} {q : HaltReason} (hstep : stepUnder p b s = .next t)
    (hend : stepResultUnder p b s = some .noMoreInstructions ∧ q = .noMoreInstructions ∨
      stepResultUnder p b s = some (.fatal q)) :
    s.status = .running ∧ t.status = .halted q := by
  rcases Laws.returned_cases hstep with
    ⟨_, _, _, hres⟩ | ⟨hs, _, rfl, hres⟩ | ⟨_, _, hs, _, _, ⟨_, hres⟩ | ⟨q', ht, hres⟩⟩
  all_goals rw [stepResultUnder, hres] at hend
  · simp at hend
  · exact ⟨hs, by simpa [eq_comm] using hend⟩
  · simp at hend
  · simp only [Option.some.injEq, reduceCtorEq, false_and, false_or, StepResult.fatal.injEq] at hend
    exact ⟨hs, hend ▸ ht⟩

end Run

/-- Settles O57: `exec` is `execute(i, r)` at this hardware's values, and a step reads `execute` in one state only. -/
theorem stepIsStepAtTheHardwaresParameters : Obligations.StepIsStepAtTheHardwaresParameters := by
  unfold Obligations.StepIsStepAtTheHardwaresParameters
  have advanced (s : State) (i : Instr) :
      exec i s.advancePc = execUnder .wrap (Config.rngByte s.rngDraws) i s.advancePc :=
    exec_eq_execUnder i s.advancePc
  exact ⟨rfl, rfl, exec_eq_execUnder, fun s => cycle_congr (advanced s), fun s => returned_congr (advanced s)⟩

/-- Settles O56: below the program's end both limits let the fetch through; past it, or halted, the step executes
nothing. -/
theorem endOfProgramLimit : Obligations.EndOfProgramLimit := by
  unfold Obligations.EndOfProgramLimit
  rintro ⟨_, e⟩ r s rfl
  refine ⟨fun hs hpc => ?_, fun hs hpc => ⟨cycle_of_limit_lt hs hpc, returned_of_limit_lt hs hpc⟩,
    fun q hs => ⟨cycle_of_halted hs, returned_of_halted hs⟩⟩
  have hmem : s.pc.toNat + 2 ≤ limitAddress .endOfMemory s := hpc.trans (limitAddress_le .endOfProgram s)
  exact (cycle_of_le_limit (l := .endOfProgram) hs hpc).trans (cycle_of_le_limit hs hmem).symm

/-- Settles O58: where a word is fetched the step is `execUnder` of the decoded word, which is read case by case. -/
theorem stepUnderGivenParameters : Obligations.StepUnderGivenParameters := by
  unfold Obligations.StepUnderGivenParameters
  intro p r s
  refine ⟨stepUnder_next p r s, fun w hf hl => ?_⟩
  have hpc := hf.le_limitAddress hl
  have hstep : stepUnder p r s = execUnder p.drawEdge r (decode w) s.advancePc := hf.cycle_eq hpc
  refine ⟨fun x y n hd => ?_, fun x k hd => ?_, fun hdrw hrnd => ?_⟩
  · have hdraw : stepUnder p r s = drwUnder p.drawEdge x y n s.advancePc := by rw [hstep, hd, execUnder]
    refine ⟨hdraw, fun he hmem hout => ?_⟩
    have hfatal : stepUnder p r s = .next (s.advancePc.halt .drawOutOfBounds) := by
      rw [hdraw, he]
      exact drwUnder_fault_of_outside (s := s.advancePc) hmem hout
    exact ⟨hfatal, hf.returned_fatal hpc hfatal rfl⟩
  · have hrand : stepUnder p r s = .next (rndWith r x k s.advancePc.drawRandom.2) := by
      rw [hstep, hd, execUnder, rndUnder]
    exact ⟨hrand, hd ▸ hf.returned_executed hpc hrand hf.running⟩
  · rcases execUnder_cases p.drawEdge r (decode w) s.advancePc with ⟨x, y, n, hd, _⟩ | ⟨x, k, hd, _⟩ | ⟨_, _, he⟩
    · exact absurd hd (hdrw x y n)
    · exact absurd hd (hrnd x k)
    · exact hstep.trans he

/-- Settles O59: the four clauses are the run's totality and the equations of its loop. -/
theorem runUnderGivenParameters : Obligations.RunUnderGivenParameters := by
  unfold Obligations.RunUnderGivenParameters
  intro p rng past polls s
  refine ⟨runUnder_next p rng past polls s, runUnder_hostStop, fun t w i r => runUnder_executed, fun t q hstep hend => ?_⟩
  obtain ⟨hs, ht⟩ := status_of_stepResultUnder_ending hstep hend
  have hreason : t.status.reason = some q := by rw [ht, Status.reason]
  rw [← hreason]
  rcases hend with ⟨hres, _⟩ | hres <;> exact runUnder_ended hs hstep hres nofun

end Sys2Proof.Machine
end

section
/-! SUPPORT. What an instruction can do, said once (`Effect`), and what it leaves unchanged, field by field; from these, the
statements of 10_state.md. -/

namespace Sys2Proof.Machine

/-- The instruction `i` takes the state `s`, PC already advanced, to `t`: one case for each way an instruction can end
(41_control.md to 46_unrecognized.md). `effect_of_exec` ties it to `exec`. A skip is written as a write of PC. -/
inductive Effect (s : State) : Instr → State → Prop where
  | sys : Effect s .sys s
  | ret (hsp : 0 < s.sp.val) (p : Fin 17) (hp : p.val = s.sp.val - 1) :
      Effect s .ret ({ s with sp := p }.writePc s.stack[s.sp.val - 1])
  | retUnderflow (hsp : s.sp.val = 0) : Effect s .ret (s.halt .stackUnderflow)
  | jp (a : Addr) : Effect s (.jp a) (s.writePc (addrValue a))
  | call (a : Addr) (hsp : s.sp.val < 16) :
      Effect s (.call a) ({ s with stack := s.stack.set s.sp.val s.pc, sp := ⟨s.sp.val + 1, Nat.succ_lt_succ hsp⟩ }.writePc
        (addrValue a))
  | callOverflow (a : Addr) (hsp : s.sp.val = 16) : Effect s (.call a) (s.halt .stackOverflow)
  | seImm (x : Reg) (k : Byte) :
      Effect s (.seImm x k) (s.writePc (if s.readV x == k then s.pc + 2 else s.pc))
  | sneImm (x : Reg) (k : Byte) :
      Effect s (.sneImm x k) (s.writePc (if s.readV x != k then s.pc + 2 else s.pc))
  | seReg (x y : Reg) :
      Effect s (.seReg x y) (s.writePc (if s.readV x == s.readV y then s.pc + 2 else s.pc))
  | sneReg (x y : Reg) :
      Effect s (.sneReg x y) (s.writePc (if s.readV x != s.readV y then s.pc + 2 else s.pc))
  | ldImm (x : Reg) (k : Byte) : Effect s (.ldImm x k) (s.writeV x k)
  | addImm (x : Reg) (k : Byte) : Effect s (.addImm x k) (s.writeV x (sum8 (s.readV x) k))
  | addReg (x y : Reg) :
      Effect s (.addReg x y)
        ((s.writeV x (sum8 (s.readV x) (s.readV y))).writeFlag (carry (s.readV x) (s.readV y)))
  | ldI (a : Addr) : Effect s (.ldI a) (s.writeI (addrValue a))
  | rnd (x : Reg) (k : Byte) : Effect s (.rnd x k) (rndWith (Config.rngByte s.rngDraws) x k s.drawRandom.2)
  | drw (x y : Reg) (n : Nib) (d : Drawn) (hmem : n.val = 0 ∨ s.i.toNat + n.val - 1 ≤ 0xFFF)
      (hd : d = drawSprite .wrap (s.coordinate x) (s.coordinate y)
        ((List.range n.val).map fun j => s.mem.read (s.i.toNat + j)) s.fb) :
      Effect s (.drw x y n) ((s.writeFb d.fb).writeFlag d.collided)
  | drwPastMemory (x y : Reg) (n : Nib) (hn : 0 < n.val) (hmem : 0xFFF < s.i.toNat + n.val - 1) :
      Effect s (.drw x y n) (s.halt .spriteOutOfRange)
  | addI (x : Reg) : Effect s (.addI x) (s.writeI (s.i + s.readV16 x))
  | unrecognized (w : Word) : Effect s (.unrecognized w) (s.halt (.unrecognizedInstruction w))

variable {i : Instr} {s t : State}

/-- A conditional skip writes PC: 2 more, or the value it has (R174). -/
theorem skipIf_eq (c : Bool) (s : State) : skipIf c s = .next (s.writePc (if c then s.pc + 2 else s.pc)) := by
  cases c <;> rfl

/-- RET pops, or underflows with SP = 0 (R151). -/
theorem effect_of_execRet (h : execRet s = .next t) : Effect s .ret t := by
  rcases s.pop_cases with ⟨hsp, p, hp, hpop⟩ | ⟨hsp, hpop⟩
  all_goals rw [execRet, hpop] at h; cases h
  · exact .ret hsp p hp
  · exact .retUnderflow hsp

/-- CALL pushes, or overflows with SP = 16 (R153). -/
theorem effect_of_execCall {a : Addr} (h : execCall a s = .next t) : Effect s (.call a) t := by
  rcases State.push_cases (s := s) s.pc with ⟨hsp, hpush⟩ | ⟨hsp, hpush⟩
  all_goals rw [execCall, hpush] at h; cases h
  · exact .call a hsp
  · exact .callOverflow a hsp

/-- DRW draws, or stops before it reads past memory; under `Wrap` no pixel lies outside (R230, R231). -/
theorem effect_of_execDrw {x y : Reg} {n : Nib} (h : execDrw x y n s = .next t) : Effect s (.drw x y n) t := by
  rcases drwUnder_cases Config.drawEdge x y n s with ⟨hn, hmem, hd⟩ | ⟨_, hmem, rfl, ⟨he, _, _⟩ | ⟨_, hd⟩⟩
  · cases hd.symm.trans h
    exact .drwPastMemory x y n hn hmem
  · exact absurd he (by decide)
  · cases hd.symm.trans h
    exact .drw x y n _ hmem rfl

/-- Everything an instruction that answers a next state can have done. -/
theorem effect_of_exec (h : exec i s = .next t) : Effect s i t := by
  cases i with
  | ret => exact effect_of_execRet h
  | call a => exact effect_of_execCall h
  | drw x y n => exact effect_of_execDrw h
  | seImm x k => cases (skipIf_eq _ s).symm.trans h; exact .seImm x k
  | sneImm x k => cases (skipIf_eq _ s).symm.trans h; exact .sneImm x k
  | seReg x y => cases (skipIf_eq _ s).symm.trans h; exact .seReg x y
  | sneReg x y => cases (skipIf_eq _ s).symm.trans h; exact .sneReg x y
  | _ => cases h; constructor

/-! ## What an instruction leaves unchanged -/

theorem State.readV_writeV_of_ne {x y : Reg} (b : Byte) (h : y ≠ x) : (s.writeV x b).readV y = s.readV y := by
  rw [State.readV_writeV, if_neg h.symm]

/-- The registers outside R22's list for the instruction are kept. -/
theorem Effect.readV_eq (e : Effect s i t) {y : Reg} (hy : y ∉ writesV i) : t.readV y = s.readV y := by
  cases e with
  | ldImm x k | addImm x k | rnd x k => exact State.readV_writeV_of_ne _ (List.ne_of_not_mem_cons hy)
  | addReg x z =>
    obtain ⟨hx, hf⟩ := List.ne_and_not_mem_of_not_mem_cons hy
    exact (State.readV_writeV_of_ne _ (List.ne_of_not_mem_cons hf)).trans (State.readV_writeV_of_ne _ hx)
  | drw x z n d => exact State.readV_writeV_of_ne (s := s.writeFb d.fb) _ (List.ne_of_not_mem_cons hy)
  | _ => rfl

/-- VF stands in R22's list for its two side effects (R23) and where it is the destination. -/
theorem of_vf_mem_writesV (h : VF ∈ writesV i) :
    (∃ x y, i = .addReg x y) ∨ (∃ x y n, i = .drw x y n) ∨
      (∃ k, i = .ldImm VF k) ∨ (∃ k, i = .addImm VF k) ∨ ∃ k, i = .rnd VF k := by
  cases i with
  | addReg x y => exact .inl ⟨x, y, rfl⟩
  | drw x y n => exact .inr (.inl ⟨x, y, n, rfl⟩)
  | ldImm x k => exact .inr (.inr (.inl ⟨k, by rw [List.mem_singleton.1 h]⟩))
  | addImm x k => exact .inr (.inr (.inr (.inl ⟨k, by rw [List.mem_singleton.1 h]⟩)))
  | rnd x k => exact .inr (.inr (.inr (.inr ⟨k, by rw [List.mem_singleton.1 h]⟩)))
  | _ => exact absurd h List.not_mem_nil

/-- Only LD I and ADD I write I (R28). -/
theorem Effect.i_eq (e : Effect s i t) (hld : ∀ a, i ≠ .ldI a) (hadd : ∀ x, i ≠ .addI x) : t.i = s.i := by
  cases e with
  | ldI a => exact absurd rfl (hld a)
  | addI x => exact absurd rfl (hadd x)
  | _ => rfl

/-- Only RET and CALL move SP (R29, R30). -/
theorem Effect.sp_eq (e : Effect s i t) (hret : i ≠ .ret) (hcall : ∀ a, i ≠ .call a) : t.sp = s.sp := by
  cases e with
  | ret => exact absurd rfl hret
  | call a => exact absurd rfl (hcall a)
  | _ => rfl

/-- Only CALL writes the stack (R30). -/
theorem Effect.stack_eq (e : Effect s i t) (hcall : ∀ a, i ≠ .call a) : t.stack = s.stack := by
  cases e with
  | call a => exact absurd rfl (hcall a)
  | _ => rfl

/-- No instruction writes a stack entry but the one at SP (R30). -/
theorem Effect.stack_getElem_eq (e : Effect s i t) {j : Fin 16} (hj : j.val ≠ s.sp.val) :
    t.stack[j.val] = s.stack[j.val] := by
  cases e with
  | call a hsp => exact Vector.getElem_set_ne hsp j.isLt hj.symm
  | _ => rfl

/-- Only DRW writes the framebuffer (R34). -/
theorem Effect.fb_eq (e : Effect s i t) (hdrw : ∀ x y n, i ≠ .drw x y n) : t.fb = s.fb := by
  cases e with
  | drw x y n => exact absurd rfl (hdrw x y n)
  | _ => rfl

/-- Only RND draws a random byte (43_register.md R195). -/
theorem Effect.rngDraws_eq (e : Effect s i t) (hrnd : ∀ x k, i ≠ .rnd x k) : t.rngDraws = s.rngDraws := by
  cases e with
  | rnd x k => exact absurd rfl (hrnd x k)
  | _ => rfl

/-- No instruction stores to memory (20_memory.md R58). -/
theorem Effect.mem_eq (e : Effect s i t) : t.mem = s.mem := by
  cases e <;> rfl

theorem Effect.progLen_eq (e : Effect s i t) : t.progLen = s.progLen := by
  cases e <;> rfl

theorem Effect.loaded_eq (e : Effect s i t) : t.loaded = s.loaded := by
  cases e <;> rfl

/-- An instruction keeps the status or records one of its fatal reasons (60_exceptions.md R260, R261). -/
theorem Effect.status_cases (e : Effect s i t) :
    t.status = s.status ∨ ∃ r : HaltReason, t.status = .halted r ∧ r.isFatal = true := by
  cases e with
  | retUnderflow | callOverflow | drwPastMemory | unrecognized => exact .inr ⟨_, rfl, rfl⟩
  | _ => exact .inl rfl

/-! ## PC after an instruction (10_state.md R25) -/

theorem Effect.pc_eq (e : Effect s i t) (hi : setsPc i = false) : t.pc = s.pc := by
  cases e with
  | ret | retUnderflow | jp | call | callOverflow | seImm | sneImm | seReg | sneReg => cases hi
  | _ => rfl

/-- A skip adds 2 to PC or nothing (R174). -/
theorem Effect.pc_of_skip (e : Effect s i t)
    (hi : (∃ x k, i = .seImm x k ∨ i = .sneImm x k) ∨ ∃ x y, i = .seReg x y ∨ i = .sneReg x y) :
    t.pc = s.pc ∨ t.pc = s.pc + 2 := by
  rcases hi with ⟨x, k, rfl | rfl⟩ | ⟨x, y, rfl | rfl⟩ <;> cases e <;> exact (ite_eq_or_eq ..).symm

theorem Effect.pc_of_jp {a : Addr} (e : Effect s (.jp a) t) : t.pc = a.setWidth 16 := by
  cases e; rfl

/-- CALL goes to its address, unless it is fatal (R153). -/
theorem Effect.pc_of_call {a : Addr} (e : Effect s (.call a) t) :
    t.pc = if s.sp.val = 16 then s.pc else a.setWidth 16 := by
  cases e with
  | call _ hsp => rw [if_neg (by omega)]; rfl
  | callOverflow _ hsp => rw [if_pos hsp]; rfl

/-- RET goes to the popped entry, unless it is fatal (R151). -/
theorem Effect.pc_of_ret (e : Effect s .ret t) :
    t.pc = if s.sp.val = 0 then s.pc else s.stack.getD (s.sp.val - 1) 0 := by
  cases e with
  | ret hsp =>
    have hlt : s.sp.val - 1 < 16 := by omega
    rw [if_neg (by omega)]
    simp [Vector.getD, Array.getD, hlt]
  | retUnderflow hsp => rw [if_pos hsp]; rfl

/-! ## The invariant (10_state.md R27, R30) -/

theorem addrValue_toNat_le (a : Addr) : (addrValue a).toNat ≤ 0x1000 := by
  have := a.isLt
  simp only [addrValue, BitVec.toNat_setWidth]
  omega

/-- A skip from a PC that leaves room does not wrap around (R174). -/
theorem skip_toNat_le (c : Bool) {pc : Word} (hpc : pc.toNat ≤ 0x1000) :
    (if c then pc + 2 else pc).toNat ≤ 0x1002 := by
  split
  · bv_omega
  · omega

/-- From an advanced PC inside memory's bound, PC goes at most 2 past it: by a skip; an address and a popped entry stay
within. -/
theorem Effect.pc_le (e : Effect s i t) (hpc : s.pc.toNat ≤ 0x1000)
    (hstack : ∀ j : Fin 16, j.val < s.sp.val → s.stack[j.val].toNat ≤ 0x1000) : t.pc.toNat ≤ 0x1002 := by
  cases e with
  | jp a | call a => exact (addrValue_toNat_le a).trans (by decide)
  | ret hsp => exact (hstack ⟨s.sp.val - 1, by omega⟩ (Nat.sub_one_lt_of_lt hsp)).trans (by decide)
  | seImm | sneImm | seReg | sneReg => exact skip_toNat_le _ hpc
  | _ => exact hpc.trans (by decide)

/-- The only entry that comes into use is the advanced PC a CALL pushes. -/
theorem Effect.stack_le (e : Effect s i t) (hpc : s.pc.toNat ≤ 0x1000)
    (hstack : ∀ j : Fin 16, j.val < s.sp.val → s.stack[j.val].toNat ≤ 0x1000) (j : Fin 16) (hj : j.val < t.sp.val) :
    t.stack[j.val].toNat ≤ 0x1000 := by
  cases e with
  | ret hsp p hp =>
    have hlt : j.val < p.val := hj
    exact hstack j (by omega)
  | call a hsp =>
    have hlt : j.val < s.sp.val + 1 := hj
    simp only [State.writePc_stack, Vector.getElem_set]
    split
    · exact hpc
    · exact hstack j (by omega)
  | _ => exact hstack j hj

/-- An instruction fetched inside memory keeps the invariant. -/
theorem Effect.inv (e : Effect s i t) (hs : s.Inv) (hpc : s.pc.toNat ≤ 0x1000) : t.Inv where
  pcBound := e.pc_le hpc hs.stackBound
  stackBound := e.stack_le hpc hs.stackBound
  memWf := e.mem_eq ▸ hs.memWf

/-- Advancing past a word that lies in memory keeps the invariant (40_fetch_execute.md R125). -/
theorem State.Inv.advancePc (hs : s.Inv) (hpc : s.pc.toNat + 2 ≤ 0x1000) :
    s.advancePc.pc.toNat ≤ 0x1000 ∧ s.advancePc.Inv := by
  have hadv : s.advancePc.pc.toNat ≤ 0x1000 := by
    rw [State.advancePc_pc]
    bv_omega
  exact ⟨hadv, hadv.trans (by decide), hs.stackBound, hs.memWf⟩

/-! ## The statements of 10_state.md -/

/-- Settles O17: a halted machine stays as it is, a halt writes the status alone, and an executed word was fetched inside
memory, so its instruction keeps the invariant. -/
theorem stepKeepsInvariant : Obligations.StepKeepsInvariant := by
  unfold Obligations.StepKeepsInvariant
  intro s t hs h
  rcases cycle_cases Config.fetchLimit exec s with ⟨_, _, hc⟩ | ⟨_, _, hc⟩ | ⟨_, hpc, hc⟩
  · cases hc.symm.trans h
    exact hs
  · cases hc.symm.trans h
    exact ⟨hs.pcBound, hs.stackBound, hs.memWf⟩
  · obtain ⟨hadv, hs'⟩ := hs.advancePc hpc
    exact (effect_of_exec (hc.symm.trans h)).inv hs' hadv

/-- Settles O43: a VF that changed is in the instruction's list, by the first clause. -/
theorem registerFrame : Obligations.RegisterFrame := by
  unfold Obligations.RegisterFrame
  intro i s t h
  have e := effect_of_exec h
  exact ⟨fun y => e.readV_eq, fun hvf => of_vf_mem_writesV (by_contra fun hmem => hvf (e.readV_eq hmem))⟩

/-- Settles O44, one frame lemma per clause. -/
theorem specialStateFrame : Obligations.SpecialStateFrame := by
  unfold Obligations.SpecialStateFrame
  intro i s t h
  have e := effect_of_exec h
  exact ⟨e.i_eq, e.sp_eq, e.stack_eq, fun j => e.stack_getElem_eq, e.fb_eq, e.rngDraws_eq,
    fun a => by rw [e.mem_eq], e.progLen_eq, e.loaded_eq, e.status_cases⟩

/-- Settles O45, one lemma per kind of instruction. -/
theorem pcFrame : Obligations.PcFrame := by
  unfold Obligations.PcFrame
  intro i s t h
  have e := effect_of_exec h
  refine ⟨e.pc_eq, e.pc_of_skip, ?_, ?_, ?_⟩
  · rintro a rfl
    exact e.pc_of_jp
  · rintro a rfl
    exact e.pc_of_call
  · rintro rfl
    exact e.pc_of_ret

/-- Settles O18: no stack entry is in use after reset. -/
theorem resetHasInvariant : Obligations.ResetHasInvariant where
  pcBound := by decide
  stackBound := fun j hj => absurd hj (Nat.not_lt_zero j.val)
  memWf := reset_mem_wf

/-- A physical pixel is the logical pixel at its coordinates div 10 (45_draw.md R228). -/
theorem Framebuffer.physical_eq_get (fb : Framebuffer) {px : Fin 640} {py : Fin 320} {x : Fin 64} {y : Fin 32}
    (hx : px.val / 10 = x.val) (hy : py.val / 10 = y.val) : fb.physical px py = fb.get x y :=
  congrArg₂ fb.get (Fin.ext hx) (Fin.ext hy)

/-- Settles O48: two pixels of one block have the coordinates of one logical pixel. -/
theorem physicalBlocksAreUniform : Obligations.PhysicalBlocksAreUniform := by
  unfold Obligations.PhysicalBlocksAreUniform
  exact ⟨fun fb px py x y => fb.physical_eq_get, fun fb px px' py py' hx hy => fb.physical_eq_get hx hy⟩

/-- Settles O49: the constants of `State.reset` (decision D11), read field by field. -/
theorem resetValues : Obligations.ResetValues := by
  unfold Obligations.ResetValues
  refine ⟨rfl, Framebuffer.get_blank, rfl, fun x => ?_, rfl, rfl, fun j => ?_, fun a => rfl, rfl⟩
  · exact Vector.getElem_replicate x.isLt
  · exact Vector.getElem_replicate j.isLt

end Sys2Proof.Machine
end

section
/-! SUPPORT. Memory over a step, after a load and after a word is placed at PC; from these, the statements of
20_memory.md. -/

namespace Sys2Proof.Machine

section Step

variable {s t : State}

/-- Everything a step can do: keep a halted machine, halt where no word fits below 0x1000, or run the instruction of the
word at PC in the advanced state (R124 to R128). -/
theorem step_cases (h : step s = .next t) :
    (∃ r, s.status = .halted r ∧ t = s) ∨
      (s.status = .running ∧ 0x1000 < s.pc.toNat + 2 ∧ t = s.halt .noMoreInstructions) ∨
      ∃ w, s.Fetching w ∧ Effect s.advancePc (decode w) t := by
  rcases cycle_cases Config.fetchLimit exec s with ⟨r, hs, hc⟩ | ⟨hs, hpc, hc⟩ | ⟨hs, hpc, hc⟩
  · cases hc.symm.trans h
    exact .inl ⟨r, hs, rfl⟩
  · cases hc.symm.trans h
    exact .inr (.inl ⟨hs, hpc, rfl⟩)
  · exact .inr (.inr ⟨_, ⟨hs, hpc, wordOfBytes_toNat _ _⟩, effect_of_exec (hc.symm.trans h)⟩)

/-- No step writes memory, the program length or the record of a load (20_memory.md R58, 10_state.md R37). -/
theorem step_keeps_memory (h : step s = .next t) : t.mem = s.mem ∧ t.progLen = s.progLen ∧ t.loaded = s.loaded := by
  rcases step_cases h with ⟨_, _, rfl⟩ | ⟨_, _, rfl⟩ | ⟨_, _, e⟩
  · exact ⟨rfl, rfl, rfl⟩
  · exact ⟨rfl, rfl, rfl⟩
  · exact ⟨e.mem_eq, e.progLen_eq, e.loaded_eq⟩

theorem run_keeps_memory {k : Nat} (h : Host.Core.run Sys2Proof.core k s = .next t) : t.mem = s.mem :=
  Laws.run_induct (M := Sys2Proof.core) (P := fun u : State => u.mem = s.mem)
    (fun _ _ hu hstep => (step_keeps_memory hstep).1.trans hu) rfl h

end Step

section Load

variable {p : List Byte}

/-- The reset machine with the program `p` loaded (40_fetch_execute.md R121); `load_reset_of_le` ties it to `load`. -/
def State.withProgram (p : List Byte) (hp : p.length ≤ 0xDFF) : State :=
  { State.reset with
    mem := State.reset.mem.writeBytes 0x200 p, progLen := ⟨p.length, Nat.lt_succ_of_le hp⟩, loaded := true }

/-- A program that fits is loaded (R121). -/
theorem load_reset_of_le (hp : p.length ≤ 0xDFF) : load p State.reset = .ok (State.withProgram p hp) := by
  rw [load, if_pos rfl, dif_pos hp]
  rfl

/-- A longer program answers ProgramTooLarge, which holds no state (R122). -/
theorem load_reset_of_lt (hp : 0xDFF < p.length) : load p State.reset = .programTooLarge := by
  rw [load, if_pos rfl, dif_neg (Nat.not_le.2 hp)]

/-- What `load` accepts on the reset machine fits, and is loaded. -/
theorem load_reset_ok {s : State} (h : load p State.reset = .ok s) : ∃ hp, s = State.withProgram p hp := by
  by_cases hp : p.length ≤ 0xDFF
  · rw [load_reset_of_le hp] at h
    exact ⟨hp, (LoadResult.ok.inj h).symm⟩
  · rw [load_reset_of_lt (Nat.not_le.1 hp)] at h
    cases h

/-- A program that fits ends inside memory (20_memory.md R52). -/
theorem program_end_le_memSize (hp : p.length ≤ 0xDFF) : 0x200 + p.length ≤ Config.memSize :=
  (Nat.add_le_add_left hp 0x200).trans (by decide)

theorem State.withProgram_mem_wf (hp : p.length ≤ 0xDFF) : (State.withProgram p hp).mem.wf = true :=
  Memory.writeBytes_wf p reset_mem_wf (program_end_le_memSize hp)

/-- After a load, address 0x200 + k reads the program's byte k, and every other address 0 (R52, decision D11). -/
theorem State.withProgram_read (hp : p.length ≤ 0xDFF) (a : Nat) :
    (State.withProgram p hp).mem.read a = if 0x200 ≤ a then p.getD (a - 0x200) 0 else 0 :=
  Memory.read_writeBytes p reset_mem_wf (program_end_le_memSize hp) a

theorem State.withProgram_read_program (hp : p.length ≤ 0xDFF) {k : Nat} (hk : k < p.length) :
    (State.withProgram p hp).mem.read (0x200 + k) = p[k] := by
  rw [State.withProgram_read, if_pos (Nat.le_add_right ..), Nat.add_sub_cancel_left, List.getD_eq_getElem p 0 hk]

theorem State.withProgram_read_outside (hp : p.length ≤ 0xDFF) {a : Nat} (ha : a < 0x200 ∨ 0x200 + p.length ≤ a) :
    (State.withProgram p hp).mem.read a = 0 := by
  rw [State.withProgram_read]
  split
  · exact List.getD_eq_default p 0 (by omega)
  · rfl

/-- A loaded machine has the reset machine's PC and stack, and memory in canonical form (10_state.md R27). -/
theorem State.withProgram_inv (hp : p.length ≤ 0xDFF) : (State.withProgram p hp).Inv where
  pcBound := resetHasInvariant.pcBound
  stackBound := resetHasInvariant.stackBound
  memWf := State.withProgram_mem_wf hp

end Load

section Place

variable {s : State} (w : Word)

/-- The host's placing of a word handed over as its value is `storeWordAtPc` (log 20). -/
theorem State.withFetchWord_toNat : s.withFetchWord 16 w.toNat = s.storeWordAtPc w := by
  rw [State.withFetchWord, ofNat_mod_toNat]

theorem State.storeWordAtPc_of_le (hpc : s.pc.toNat + 2 ≤ 0x1000) :
    s.storeWordAtPc w = { s with mem := s.mem.writeBytes s.pc.toNat [hiByte w, loByte w] } :=
  if_pos hpc

/-- What memory reads as after a word is placed at PC: its bytes at PC and PC + 1, high byte first (R55). -/
theorem State.storeWordAtPc_read (hpc : s.pc.toNat + 2 ≤ 0x1000) (hm : s.mem.wf = true) (a : Nat) :
    (s.storeWordAtPc w).mem.read a =
      if s.pc.toNat ≤ a then [hiByte w, loByte w].getD (a - s.pc.toNat) (s.mem.read a) else s.mem.read a := by
  rw [State.storeWordAtPc_of_le w hpc]
  exact Memory.read_writeBytes [hiByte w, loByte w] hm hpc a

/-- A running machine fetches the word placed at its PC (R55, 40_fetch_execute.md R124). -/
theorem State.storeWordAtPc_fetching (hs : s.status = .running) (hpc : s.pc.toNat + 2 ≤ 0x1000)
    (hm : s.mem.wf = true) : (s.storeWordAtPc w).Fetching w := by
  have hhi : (s.storeWordAtPc w).mem.read s.pc.toNat = hiByte w := by
    simp [State.storeWordAtPc_read w hpc hm]
  have hlo : (s.storeWordAtPc w).mem.read (s.pc.toNat + 1) = loByte w := by
    simp [State.storeWordAtPc_read w hpc hm]
  have hword : w.toNat = (hiByte w).toNat * 256 + (loByte w).toNat := by
    rw [← wordOfBytes_toNat, wordOfBytes_hi_lo]
  rw [← hhi, ← hlo] at hword
  rw [State.storeWordAtPc_of_le w hpc] at hword ⊢
  exact ⟨hs, hpc, hword⟩

theorem State.storeWordAtPc_read_other (hpc : s.pc.toNat + 2 ≤ 0x1000) (hm : s.mem.wf = true) {a : Nat}
    (hne : a ≠ s.pc.toNat) (hne' : a ≠ s.pc.toNat + 1) : (s.storeWordAtPc w).mem.read a = s.mem.read a := by
  rw [State.storeWordAtPc_read w hpc hm]
  split
  · exact List.getD_eq_default _ _ (by simp only [List.length_cons, List.length_nil]; omega)
  · rfl

/-- The host's decoder reads a word of 16 bits as the step does (30_encoding.md R70). -/
theorem decodeTableWord_toNat : decodeTableWord 16 w.toNat = some (decode w) := by
  rw [decodeTableWord, if_pos (Nat.le_refl 16), ofNat_mod_toNat, decodeBytes, wordOfBytes_hi_lo]

end Place

/-! ## The statements of 20_memory.md -/

/-- Settles O16: a step either leaves the state, writes the status alone, or runs an instruction, and none stores. -/
theorem stepKeepsMemory : Obligations.StepKeepsMemory := by
  unfold Obligations.StepKeepsMemory
  refine ⟨fun s t h => ?_, fun k s t h a => by rw [run_keeps_memory h]⟩
  obtain ⟨hmem, hlen, hloaded⟩ := step_keeps_memory h
  exact ⟨hmem, fun a => by rw [hmem], hlen, hloaded⟩

/-- Settles O19: the loaded machine has the invariant and every step keeps it. -/
theorem loadedMachineHasInvariant : Obligations.LoadedMachineHasInvariant := by
  unfold Obligations.LoadedMachineHasInvariant
  intro p s h
  obtain ⟨hp, rfl⟩ := load_reset_ok h
  have hinv := State.withProgram_inv hp
  exact ⟨hinv, fun k t => Laws.run_induct (M := Sys2Proof.core) (P := State.Inv) stepKeepsInvariant hinv⟩

/-- Settles O50; 0xFFF lies past the end of every program that fits (90_conflicts.md C5). -/
theorem loadCopiesProgram : Obligations.LoadCopiesProgram := by
  unfold Obligations.LoadCopiesProgram
  intro p
  refine ⟨fun hp => ?_, load_reset_of_lt⟩
  have hlast : 0x200 + p.length ≤ 0xFFF := Nat.add_le_add_left hp 0x200
  exact ⟨State.withProgram p hp, load_reset_of_le hp, fun k => State.withProgram_read_program hp,
    fun a => State.withProgram_read_outside hp, State.withProgram_read_outside hp (.inr hlast), rfl,
    State.withProgram_mem_wf hp, rfl⟩

/-- Settles O53, by what memory reads as after the two bytes are written. -/
theorem placedWordIsFetched : Obligations.PlacedWordIsFetched := by
  unfold Obligations.PlacedWordIsFetched
  refine ⟨fun s w hs hpc hm => ?_, decodeTableWord_toNat⟩
  rw [State.withFetchWord_toNat]
  exact ⟨State.storeWordAtPc_fetching w hs hpc hm, State.storeWordAtPc_wf w hm,
    fun a => State.storeWordAtPc_read_other w hpc hm⟩

end Sys2Proof.Machine
end

section
/-! SUPPORT. The decoder said once, case by case (`Decoded`), the table's rows, the fields of an encoded word, and the
trace line; from these, the statements of 30_encoding.md. -/

namespace Sys2Proof

/-! ## The words no row covers (30_encoding.md R95) -/

theorem nField_eq_iff (w : Word) (n : Nib) : nField w = n ↔ w.toNat % 16 = n.val := by
  rw [Fin.ext_iff, nField_val]

theorem kkField_eq_iff (w : Word) (k : Byte) : kkField w = k ↔ w.toNat % 256 = k.toNat := by
  rw [← BitVec.toNat_inj, kkField_toNat]

/-- The complement of `modelledWord_iff`: R95's list. -/
theorem modelledWord_eq_false_iff (w : Word) :
    modelledWord w = false ↔
      (w.toNat / 0x1000 = 0x5 ∧ w.toNat % 0x10 ≠ 0x0) ∨ (w.toNat / 0x1000 = 0x8 ∧ w.toNat % 0x10 ≠ 0x4) ∨
      (w.toNat / 0x1000 = 0x9 ∧ w.toNat % 0x10 ≠ 0x0) ∨ w.toNat / 0x1000 = 0xB ∨ w.toNat / 0x1000 = 0xE ∨
      (w.toNat / 0x1000 = 0xF ∧ w.toNat % 0x100 ≠ 0x1E) := by
  have hg : w.toNat / 4096 < 16 := Nat.div_lt_of_lt_mul w.isLt
  rw [← Bool.not_eq_true, modelledWord_iff]
  generalize w.toNat / 4096 = g at *
  interval_cases g <;> simp

/-! ## The decoder, arm by arm (R78 to R90) -/

/-- The word `w` decodes to the instruction: one case for each of the fifteen rows of the table, read off the fields of
R71, and one for the words no row covers. `decoded_decode` ties it to `decode`. -/
inductive Decoded (w : Word) : Instr → Prop where
  | sys (hop : opField w = 0x0) (hne : w ≠ 0x00EE) : Decoded w .sys
  | ret (hw : w = 0x00EE) : Decoded w .ret
  | jp (hop : opField w = 0x1) : Decoded w (.jp (nnnField w))
  | call (hop : opField w = 0x2) : Decoded w (.call (nnnField w))
  | seImm (hop : opField w = 0x3) : Decoded w (.seImm (xField w) (kkField w))
  | sneImm (hop : opField w = 0x4) : Decoded w (.sneImm (xField w) (kkField w))
  | seReg (hop : opField w = 0x5) (hn : nField w = 0x0) : Decoded w (.seReg (xField w) (yField w))
  | sneReg (hop : opField w = 0x9) (hn : nField w = 0x0) : Decoded w (.sneReg (xField w) (yField w))
  | ldImm (hop : opField w = 0x6) : Decoded w (.ldImm (xField w) (kkField w))
  | addImm (hop : opField w = 0x7) : Decoded w (.addImm (xField w) (kkField w))
  | addReg (hop : opField w = 0x8) (hn : nField w = 0x4) : Decoded w (.addReg (xField w) (yField w))
  | ldI (hop : opField w = 0xA) : Decoded w (.ldI (nnnField w))
  | rnd (hop : opField w = 0xC) : Decoded w (.rnd (xField w) (kkField w))
  | drw (hop : opField w = 0xD) : Decoded w (.drw (xField w) (yField w) (nField w))
  | addI (hop : opField w = 0xF) (hk : kkField w = 0x1E) : Decoded w (.addI (xField w))
  | unrecognized (hw : modelledWord w = false) : Decoded w (.unrecognized w)

/-- The arms that test the low nibble (groups 5, 8 and 9): elsewhere in the group the word must be one no row covers. -/
theorem decoded_ite_nField {w : Word} {n : Nib} {i : Instr} (hi : nField w = n → Decoded w i)
    (hn : w.toNat % 16 ≠ n.val → modelledWord w = false) :
    Decoded w (if nField w = n then i else .unrecognized w) := by
  split
  next h => exact hi h
  next h => exact .unrecognized (hn (mt (nField_eq_iff w n).2 h))

theorem decoded_decode (w : Word) : Decoded w (decode w) := by
  have hlist := (modelledWord_eq_false_iff w).2
  rw [← opField_eq] at hlist
  unfold decode
  split
  next hop =>
    split
    next h => exact .ret h
    next h => exact .sys hop h
  next hop => exact .jp hop
  next hop => exact .call hop
  next hop => exact .seImm hop
  next hop => exact .sneImm hop
  next hop => exact decoded_ite_nField (.seReg hop) fun h => hlist (by simpa [hop] using h)
  next hop => exact .ldImm hop
  next hop => exact .addImm hop
  next hop => exact decoded_ite_nField (.addReg hop) fun h => hlist (by simpa [hop] using h)
  next hop => exact decoded_ite_nField (.sneReg hop) fun h => hlist (by simpa [hop] using h)
  next hop => exact .ldI hop
  next hop => exact .rnd hop
  next hop => exact .drw hop
  next hop =>
    split
    next h => exact .addI hop h
    next h => exact .unrecognized (hlist (by simpa [hop, kkField_eq_iff] using h))
  next =>
    have hg : opField w < 16 := opField_eq w ▸ Nat.div_lt_of_lt_mul w.isLt
    simp only [imp_false] at *
    exact .unrecognized (hlist (by omega))

/-! ## The table's rows -/

section Covers

variable {w p : Word} {m : String} {g : Nat}

/-- A row with mask 0xF000 covers the words of its group. -/
theorem covers_F000 (hop : opField w = g) (hp : g * 4096 = p.toNat) : OpcodeRow.covers ⟨m, 0xF000, p⟩ w = true := by
  rw [covers_iff, mask_F000, ← opField_eq, hop, hp]

/-- A row with mask 0xF00F covers the words of its group with its low nibble. -/
theorem covers_F00F {n : Nib} (hop : opField w = g) (hn : nField w = n) (hp : g * 4096 + n.val = p.toNat) :
    OpcodeRow.covers ⟨m, 0xF00F, p⟩ w = true := by
  rw [covers_iff, mask_F00F, ← opField_eq, hop, (nField_eq_iff w n).1 hn, hp]

/-- A row with mask 0xF0FF covers the words of its group with its low byte. -/
theorem covers_F0FF {k : Byte} (hop : opField w = g) (hk : kkField w = k) (hp : g * 4096 + k.toNat = p.toNat) :
    OpcodeRow.covers ⟨m, 0xF0FF, p⟩ w = true := by
  rw [covers_iff, mask_F0FF, ← opField_eq, hop, (kkField_eq_iff w k).1 hk, hp]

end Covers

theorem modelledWord_of_covers {q : OpcodeRow} {w : Word} (hq : q ∈ opcodeRows) (hqw : q.covers w = true) :
    modelledWord w = true :=
  List.any_eq_true.2 ⟨q, hq, hqw⟩

/-- Some row of the table covers `w` and bears the instruction's mnemonic. -/
def HasRow (w : Word) (i : Instr) : Prop := ∃ q ∈ opcodeRows, q.covers w = true ∧ i.mnemonic = q.mnemonic

/-- A decoded instruction has a row of its own, or is the unrecognized value of a word no row covers (R78). -/
theorem Decoded.hasRow_or_unrecognized {w : Word} {i : Instr} (h : Decoded w i) :
    HasRow w i ∨ i = .unrecognized w ∧ modelledWord w = false := by
  cases h with
  | unrecognized hw => exact .inr ⟨rfl, hw⟩
  | sys hop => exact .inl ⟨⟨"SYS", 0xF000, 0x0000⟩, by decide, covers_F000 hop rfl, rfl⟩
  | ret hw => exact .inl ⟨⟨"RET", 0xFFFF, 0x00EE⟩, by decide, by rw [hw]; rfl, rfl⟩
  | jp hop => exact .inl ⟨⟨"JP", 0xF000, 0x1000⟩, by decide, covers_F000 hop rfl, rfl⟩
  | call hop => exact .inl ⟨⟨"CALL", 0xF000, 0x2000⟩, by decide, covers_F000 hop rfl, rfl⟩
  | seImm hop => exact .inl ⟨⟨"SE_Vx__kk", 0xF000, 0x3000⟩, by decide, covers_F000 hop rfl, rfl⟩
  | sneImm hop => exact .inl ⟨⟨"SNE_Vx__kk", 0xF000, 0x4000⟩, by decide, covers_F000 hop rfl, rfl⟩
  | seReg hop hn => exact .inl ⟨⟨"SE_Vx__Vy", 0xF00F, 0x5000⟩, by decide, covers_F00F hop hn rfl, rfl⟩
  | sneReg hop hn => exact .inl ⟨⟨"SNE_Vx__Vy", 0xF00F, 0x9000⟩, by decide, covers_F00F hop hn rfl, rfl⟩
  | ldImm hop => exact .inl ⟨⟨"LD_Vx__kk", 0xF000, 0x6000⟩, by decide, covers_F000 hop rfl, rfl⟩
  | addImm hop => exact .inl ⟨⟨"ADD_Vx__kk", 0xF000, 0x7000⟩, by decide, covers_F000 hop rfl, rfl⟩
  | addReg hop hn => exact .inl ⟨⟨"ADD_Vx__Vy", 0xF00F, 0x8004⟩, by decide, covers_F00F hop hn rfl, rfl⟩
  | ldI hop => exact .inl ⟨⟨"LD_I__addr", 0xF000, 0xA000⟩, by decide, covers_F000 hop rfl, rfl⟩
  | rnd hop => exact .inl ⟨⟨"RND_Vx__kk", 0xF000, 0xC000⟩, by decide, covers_F000 hop rfl, rfl⟩
  | drw hop => exact .inl ⟨⟨"DRW_Vx__Vy__n", 0xF000, 0xD000⟩, by decide, covers_F000 hop rfl, rfl⟩
  | addI hop hk => exact .inl ⟨⟨"ADD_I__Vx", 0xF0FF, 0xF01E⟩, by decide, covers_F0FF hop hk rfl, rfl⟩

/-- Two rows that cover one word have patterns that agree where both masks look. -/
theorem patterns_agree_of_covers {q r : OpcodeRow} {w : Word} (hr : r.covers w = true) (hq : q.covers w = true) :
    r.pattern &&& q.mask = q.pattern &&& r.mask := by
  rw [OpcodeRow.covers, beq_iff_eq] at hr hq
  rw [← hr, ← hq, BitVec.and_assoc, BitVec.and_assoc, BitVec.and_comm r.mask]

/-- The row of SYS. -/
def sysRow : OpcodeRow := ⟨"SYS", 0xF000, 0x0000⟩

/-- The row of RET, whose one word the row of SYS covers too. -/
def retRow : OpcodeRow := ⟨"RET", 0xFFFF, 0x00EE⟩

theorem eq_of_retRow_covers {w : Word} (h : retRow.covers w = true) : w = 0x00EE := by
  rw [covers_iff, retRow, mask_FFFF] at h
  exact BitVec.eq_of_toNat_eq h

/-- Of all pairs of rows, only the patterns of SYS and RET agree where both masks look. -/
theorem sysRow_retRow_of_patterns_agree :
    ∀ r ∈ opcodeRows, ∀ q ∈ opcodeRows, r.pattern &&& q.mask = q.pattern &&& r.mask →
      r = q ∨ r = sysRow ∧ q = retRow ∨ r = retRow ∧ q = sysRow := by
  decide

/-- Two rows that cover one word are one row, or those of SYS and RET at 0x00EE. -/
theorem rows_of_covers {r q : OpcodeRow} {w : Word} (hr : r ∈ opcodeRows) (hq : q ∈ opcodeRows)
    (hrw : r.covers w = true) (hqw : q.covers w = true) :
    r = q ∨ w = 0x00EE ∧ (r = sysRow ∧ q = retRow ∨ r = retRow ∧ q = sysRow) := by
  rcases sysRow_retRow_of_patterns_agree r hr q hq (patterns_agree_of_covers hrw hqw) with h | ⟨h, rfl⟩ | ⟨rfl, h⟩
  · exact .inl h
  · exact .inr ⟨eq_of_retRow_covers hqw, .inl ⟨h, rfl⟩⟩
  · exact .inr ⟨eq_of_retRow_covers hrw, .inr ⟨rfl, h⟩⟩

/-! ## When a word decodes to SYS, to RET, to an unrecognized value (R79, R80, R95) -/

theorem decode_eq_ret_iff (w : Word) : decode w = .ret ↔ w = 0x00EE := by
  constructor
  · intro h
    cases h ▸ decoded_decode w with
    | ret hw => exact hw
  · rintro rfl
    rfl

theorem decode_eq_sys_iff (w : Word) : decode w = .sys ↔ w.toNat < 0x1000 ∧ w ≠ 0x00EE := by
  have hop : opField w = 0 ↔ w.toNat < 0x1000 := by rw [opField_eq]; omega
  rw [← hop]
  constructor
  · intro h
    cases h ▸ decoded_decode w with
    | sys hop hne => exact ⟨hop, hne⟩
  · rintro ⟨hop, hne⟩
    simpa [decode, hop] using hne

theorem decode_eq_unrecognized_iff (w u : Word) : decode w = .unrecognized u ↔ u = w ∧ modelledWord w = false := by
  constructor
  · intro h
    cases h ▸ decoded_decode w with
    | unrecognized hw => exact ⟨rfl, hw⟩
  · rintro ⟨rfl, hw⟩
    rcases (decoded_decode u).hasRow_or_unrecognized with ⟨q, hq, hqw, -⟩ | ⟨h, -⟩
    · exact absurd (modelledWord_of_covers hq hqw) (ne_true_of_eq_false hw)
    · exact h

theorem Decoded.wf {w : Word} {i : Instr} (h : Decoded w i) : i.wf = true := by
  cases h with
  | unrecognized hw => simp [Instr.wf, hw]
  | _ => rfl

/-! ## The formats and the fields of a word (R71, R76) -/

@[simp] theorem opField_formatA (op : BitVec 4) (a : Addr) : opField (formatA op a) = op.toNat := by
  rw [opField_eq, formatA_toNat]
  omega

@[simp] theorem nnnField_formatA (op : BitVec 4) (a : Addr) : nnnField (formatA op a) = a := by
  apply BitVec.eq_of_toNat_eq
  rw [nnnField_toNat, formatA_toNat]
  omega

section FormatXK

variable (op : BitVec 4) (x : Reg) (k : Byte)

@[simp] theorem opField_formatXK : opField (formatXK op x k) = op.toNat := by
  rw [opField_eq, formatXK_toNat]
  omega

@[simp] theorem xField_formatXK : xField (formatXK op x k) = x := by
  apply Fin.ext
  rw [xField_val, formatXK_toNat]
  omega

@[simp] theorem kkField_formatXK : kkField (formatXK op x k) = k := by
  rw [kkField_eq_iff, formatXK_toNat]
  omega

end FormatXK

section FormatXYN

variable (op : BitVec 4) (x y : Reg) (n : BitVec 4)

@[simp] theorem opField_formatXYN : opField (formatXYN op x y n) = op.toNat := by
  rw [opField_eq, formatXYN_toNat]
  omega

@[simp] theorem xField_formatXYN : xField (formatXYN op x y n) = x := by
  apply Fin.ext
  rw [xField_val, formatXYN_toNat]
  omega

@[simp] theorem yField_formatXYN : yField (formatXYN op x y n) = y := by
  apply Fin.ext
  rw [yField_val, formatXYN_toNat]
  omega

@[simp] theorem nField_formatXYN : nField (formatXYN op x y n) = n.toFin := by
  rw [nField_eq_iff, formatXYN_toNat]
  change _ = n.toNat
  omega

end FormatXYN

@[simp] theorem nibBits_toFin (n : Nib) : (nibBits n).toFin = n := Fin.ext (nibBits_toNat n)

section Fields

variable {op : BitVec 4} {w : Word}

/-- A word of format A is its opcode nibble and its address put together again. -/
theorem formatA_fields (hop : opField w = op.toNat) : formatA op (nnnField w) = w := by
  apply BitVec.eq_of_toNat_eq
  rw [formatA_toNat, ← hop, opField_eq, nnnField_toNat]
  omega

theorem formatXK_fields (hop : opField w = op.toNat) : formatXK op (xField w) (kkField w) = w := by
  apply BitVec.eq_of_toNat_eq
  rw [formatXK_toNat, ← hop, opField_eq, xField_val, kkField_toNat]
  omega

theorem formatXYN_fields {n : BitVec 4} (hop : opField w = op.toNat) (hn : nField w = n.toFin) :
    formatXYN op (xField w) (yField w) n = w := by
  have hn' : w.toNat % 16 = n.toNat := (nField_eq_iff w _).1 hn
  apply BitVec.eq_of_toNat_eq
  rw [formatXYN_toNat, ← hop, opField_eq, xField_val, yField_val, ← hn']
  omega

end Fields

/-- Encoding undoes decoding wherever decoding kept the whole word, that is for all but SYS (R80, R94). -/
theorem Decoded.encode_eq {w : Word} {i : Instr} (h : Decoded w i) (hi : i ≠ .sys) : encode i = w := by
  cases h with
  | sys => exact absurd rfl hi
  | ret hw => exact hw.symm
  | jp hop | call hop | ldI hop => exact formatA_fields hop
  | seImm hop | sneImm hop | ldImm hop | addImm hop | rnd hop => exact formatXK_fields hop
  | seReg hop hn | sneReg hop hn | addReg hop hn => exact formatXYN_fields hop hn
  | drw hop => exact formatXYN_fields hop (nibBits_toFin _).symm
  | addI hop hk => rw [encode, ← hk]; exact formatXK_fields hop
  | unrecognized => rfl

/-! ## The statements of 30_encoding.md -/

/-- Settles O1: the decoder reads the fields the format wrote; an unrecognized value carries a word no row covers. -/
theorem decodeEncodeRoundTrip : Obligations.DecodeEncodeRoundTrip := by
  unfold Obligations.DecodeEncodeRoundTrip
  intro i hi
  cases i with
  | sys | ret => rfl
  | unrecognized w => exact (decode_eq_unrecognized_iff w w).2 ⟨rfl, by simpa [Instr.wf] using hi⟩
  | _ => simp [encode, decode]

/-- Settles O2: SYS is the one instruction whose encoding drops the word's operand. -/
theorem encodeDecodeExceptSysGroup : Obligations.EncodeDecodeExceptSysGroup := by
  unfold Obligations.EncodeDecodeExceptSysGroup
  intro w
  split
  next h => rw [(decode_eq_sys_iff w).2 h, encode]
  next h => exact (decoded_decode w).encode_eq (mt (decode_eq_sys_iff w).1 h)

/-- Settles O3: `wf`, `mkUnrecognized` and the decoder all ask whether some row covers the word. -/
theorem decodeYieldsWellFormed : Obligations.DecodeYieldsWellFormed := by
  unfold Obligations.DecodeYieldsWellFormed
  refine ⟨fun w => (decoded_decode w).wf, fun w => ?_, fun w => ?_⟩
  · simp [decode_eq_unrecognized_iff, Instr.wf]
  · cases h : modelledWord w <;> simp [decode_eq_unrecognized_iff, Machine.mkUnrecognized, h]

/-- Settles O4: the words no row covers are R95's list. -/
theorem unrecognizedWordsAreTheListedOnes : Obligations.UnrecognizedWordsAreTheListedOnes := by
  unfold Obligations.UnrecognizedWordsAreTheListedOnes
  intro w u
  rw [decode_eq_unrecognized_iff, modelledWord_eq_false_iff]

/-- Settles O5, by the value of each format. -/
theorem encodeArithmetic : Obligations.EncodeArithmetic := by
  unfold Obligations.EncodeArithmetic
  refine ⟨⟨rfl, rfl, fun w => rfl⟩, fun a => ?_, fun x k => ?_, fun x y => ?_, fun x y n => ?_, fun x => ?_⟩
  · exact ⟨formatA_toNat _ a, formatA_toNat _ a, formatA_toNat _ a⟩
  · exact ⟨formatXK_toNat _ x k, formatXK_toNat _ x k, formatXK_toNat _ x k, formatXK_toNat _ x k, formatXK_toNat _ x k⟩
  · simp only [encode, formatXYN_toNat, BitVec.reduceToNat]
    omega
  · simp only [encode, formatXYN_toNat, nibBits_toNat, BitVec.reduceToNat]
  · simp only [encode, formatXK_toNat, BitVec.reduceToNat]
    omega

/-- Settles O6: `decode` answers RET in one arm only. -/
theorem onlyRetWordDecodesToRet : Obligations.OnlyRetWordDecodesToRet := by
  unfold Obligations.OnlyRetWordDecodesToRet
  exact decode_eq_ret_iff

/-- Settles O8: a decoded instruction has a row of its own, which is any row that covers the word, SYS and RET apart. -/
theorem decodeFollowsOpcodeTable : Obligations.DecodeFollowsOpcodeTable := by
  unfold Obligations.DecodeFollowsOpcodeTable
  refine ⟨fun w r hr hrw => ?_, fun w hw => ?_, fun w r hr q hq hrw hqw hne => ?_⟩
  · rcases (decoded_decode w).hasRow_or_unrecognized with ⟨q, hq, hqw, hm⟩ | ⟨-, hw⟩
    · rcases rows_of_covers hr hq hrw hqw with rfl | ⟨hw, ⟨rfl, -⟩ | ⟨rfl, -⟩⟩
      · exact .inl hm
      · exact .inr ⟨rfl, hw⟩
      · exact .inl (by rw [hw]; rfl)
    · exact absurd (modelledWord_of_covers hr hrw) (ne_true_of_eq_false hw)
  · rw [(decode_eq_unrecognized_iff w w).2 ⟨rfl, hw⟩, Instr.mnemonic]
  · rcases rows_of_covers hr hq hrw hqw with h | ⟨hw, ⟨rfl, rfl⟩ | ⟨rfl, rfl⟩⟩
    · exact absurd h hne
    · exact ⟨hw, .inl ⟨rfl, rfl⟩⟩
    · exact ⟨hw, .inr ⟨rfl, rfl⟩⟩

end Sys2Proof

namespace Sys2Proof.Machine

theorem toNat_ofNat_of_lt {n v : Nat} (h : v < 2 ^ n) : (BitVec.ofNat n v).toNat = v := by
  rw [BitVec.toNat_ofNat, Nat.mod_eq_of_lt h]

/-- Settles O9: the address built from a value in range keeps it, since 12 bits hold it. -/
theorem addressConstructorFailsFast : Obligations.AddressConstructorFailsFast := by
  unfold Obligations.AddressConstructorFailsFast
  refine fun v => ⟨fun hv => ⟨_, if_pos hv, ?_⟩, fun hv => if_neg (Nat.not_le.2 hv)⟩
  exact toNat_ofNat_of_lt (Nat.lt_succ_of_le hv)

/-- Settles O10: an operand built from a value in range keeps it. -/
theorem boundedConstructorsFailFast : Obligations.BoundedConstructorsFailFast := by
  unfold Obligations.BoundedConstructorsFailFast
  intro v
  refine ⟨fun hv => ?_, fun hv => ?_, fun hv => ?_, fun hv => ?_, fun hv => ?_, fun hv => ?_⟩
  · have hlt : v < 16 := Nat.lt_succ_of_le hv
    exact ⟨⟨_, dif_pos hlt, rfl⟩, _, dif_pos hlt, rfl⟩
  · have hge : ¬ v < 16 := Nat.not_lt.2 hv
    exact ⟨dif_neg hge, dif_neg hge⟩
  · exact ⟨_, if_pos hv, toNat_ofNat_of_lt (Nat.lt_succ_of_le hv)⟩
  · exact if_neg (Nat.not_le.2 hv)
  · exact ⟨_, if_pos hv, toNat_ofNat_of_lt (Nat.lt_succ_of_le hv)⟩
  · exact if_neg (Nat.not_le.2 hv)

/-! ## The trace line (R100, R101) -/

theorem hexDigit_injective : Function.Injective hexDigit := by decide

theorem toList_hex4 (w : Word) :
    (hex4 w).toList =
      [hexDigit (nibField w 12), hexDigit (nibField w 8), hexDigit (nibField w 4), hexDigit (nibField w 0)] :=
  String.toList_ofList

theorem length_hex4 (w : Word) : (hex4 w).length = 4 := by
  rw [← String.length_toList, toList_hex4]
  rfl

/-- Four digits are the four nibbles, which are the word. -/
theorem hex4_injective : Function.Injective hex4 := by
  intro w u h
  have hdigits := congrArg String.toList h
  simp only [toList_hex4, List.cons.injEq, hexDigit_injective.eq_iff, and_true, Fin.ext_iff, nibField_val] at hdigits
  have hw := w.isLt
  have hu := u.isLt
  exact BitVec.eq_of_toNat_eq (by omega)

/-- The word's digits are the front of its trace line, and of one length for all words. -/
theorem traceLine_injective : Function.Injective traceLine := by
  intro w u h
  have hlists := congrArg String.toList h
  simp only [traceLine, String.toList_append, List.append_assoc] at hlists
  have hlen : (hex4 w).toList.length = (hex4 u).toList.length := by simp only [String.length_toList, length_hex4]
  exact hex4_injective (String.toList_inj.1 (List.append_inj_left hlists hlen))

/-- Settles O11: the first clause is the form of the line, the third that its front is of one length. -/
theorem traceLineIdentifiesWord : Obligations.TraceLineIdentifiesWord := by
  unfold Obligations.TraceLineIdentifiesWord
  exact ⟨fun w => ⟨render (decode w), rfl⟩, length_hex4, fun w u h => traceLine_injective h, by decide, by decide⟩

/-- Settles O15: every arm of `exec` answers a next state, and a step answers one around such an `exec`. -/
theorem everyStepAnswersNext : Obligations.EveryStepAnswersNext := by
  unfold Obligations.EveryStepAnswersNext
  exact ⟨exec_next, cycle_next exec_next⟩

end Sys2Proof.Machine
end

section
/-! SUPPORT. The step where a word is fetched, the causes of a halt, the machine after its first step, and the run told
step by step; from these, the statements of 40_fetch_execute.md. -/

namespace Sys2Proof.Machine

variable {i : Instr} {s t : State} {w : Word}

/-! ## One step (40_fetch_execute.md R124 to R128) -/

/-- Where `w` is fetched the step executes it with PC advanced (R125, R126). -/
theorem State.Fetching.step_eq (hf : s.Fetching w) : step s = exec (decode w) s.advancePc := hf.cycle_eq hf.inMemory

theorem step_next (s : State) : ∃ t, step s = .next t := cycle_next exec_next s

/-- A halted machine stays as it is over any number of steps (R128, decision D21). -/
theorem run_of_halted {q : HaltReason} (k : Nat) (hs : s.status = .halted q) :
    Host.Core.run Sys2Proof.core k s = .next s := by
  induction k with
  | zero => rfl
  | succ k ih => exact (Laws.run_succ_of_next (M := Sys2Proof.core) k (cycle_of_halted hs)).trans ih

/-- Settles O12: an executed word lies in memory, which is this hardware's fetch limit. -/
theorem stepRunsDecodedInstruction : Obligations.StepRunsDecodedInstruction := by
  unfold Obligations.StepRunsDecodedInstruction
  rintro s w i hf rfl
  exact hf.step_eq

/-- Settles O13, by what a step around any `execute` does on a halted machine and past the limit. -/
theorem stepWithNothingToRun : Obligations.StepWithNothingToRun := by
  unfold Obligations.StepWithNothingToRun
  exact ⟨fun s r hs => ⟨cycle_of_halted hs, returned_of_halted hs⟩,
    fun s hs hpc => ⟨cycle_of_limit_lt hs hpc, returned_of_limit_lt hs hpc⟩⟩

/-- Settles O14: a step answers a next state, and what it returns is read from that state's status. -/
theorem stepReturnsExecutedOrFatal : Obligations.StepReturnsExecutedOrFatal := by
  unfold Obligations.StepReturnsExecutedOrFatal
  intro s w hf
  obtain ⟨t, ht⟩ := step_next s
  exact ⟨t, ht, hf.returned_executed hf.inMemory ht, fun r => hf.returned_fatal hf.inMemory ht⟩

/-- Settles O20, by induction on the number of steps. -/
theorem haltedForEver : Obligations.HaltedForEver := by
  unfold Obligations.HaltedForEver
  exact fun k s r => run_of_halted k

/-! ## The causes of a halt (60_exceptions.md R261) -/

/-- The instruction `i`, run in the state `s`, halts the machine for the reason: the fatal rows of R261 that can arise
under `Wrap`. `Effect.status_eq_halted_iff` ties it to what an instruction does. -/
inductive HaltCause (s : State) : Instr → HaltReason → Prop where
  | stackUnderflow (hsp : s.sp.val = 0) : HaltCause s .ret .stackUnderflow
  | stackOverflow (a : Addr) (hsp : s.sp.val = 16) : HaltCause s (.call a) .stackOverflow
  | unrecognized (w : Word) : HaltCause s (.unrecognized w) (.unrecognizedInstruction w)
  | spriteOutOfRange (x y : Reg) (n : Nib) (hn : 0 < n.val) (hmem : 0xFFF < s.i.toNat + n.val - 1) :
      HaltCause s (.drw x y n) .spriteOutOfRange

/-- On a running machine an instruction records exactly the reason it has a cause for. -/
theorem Effect.status_eq_halted_iff (e : Effect s i t) (hs : s.status = .running) (r : HaltReason) :
    t.status = .halted r ↔ HaltCause s i r := by
  constructor
  · intro ht
    cases e with
    | retUnderflow hsp => cases ht; exact .stackUnderflow hsp
    | callOverflow a hsp => cases ht; exact .stackOverflow a hsp
    | unrecognized w => cases ht; exact .unrecognized w
    | drwPastMemory x y n hn hmem => cases ht; exact .spriteOutOfRange x y n hn hmem
    | _ => cases hs.symm.trans ht
  · intro hc
    cases hc with
    | stackUnderflow hsp =>
      cases e with
      | ret hpos => omega
      | retUnderflow => rfl
    | stackOverflow a hsp =>
      cases e with
      | call _ hlt => omega
      | callOverflow => rfl
    | unrecognized w => cases e; rfl
    | spriteOutOfRange x y n hn hpast =>
      cases e with
      | drw _ _ _ d hmem => omega
      | drwPastMemory => rfl

theorem haltCause_stackUnderflow_iff : HaltCause s i .stackUnderflow ↔ i = .ret ∧ s.sp = 0 := by
  constructor
  · rintro ⟨⟩
    exact ⟨rfl, Fin.ext ‹_›⟩
  · rintro ⟨rfl, hsp⟩
    exact .stackUnderflow (congrArg Fin.val hsp)

theorem haltCause_stackOverflow_iff : HaltCause s i .stackOverflow ↔ (∃ a, i = .call a) ∧ s.sp = 16 := by
  constructor
  · rintro ⟨⟩
    exact ⟨⟨_, rfl⟩, Fin.ext ‹_›⟩
  · rintro ⟨⟨a, rfl⟩, hsp⟩
    exact .stackOverflow a (congrArg Fin.val hsp)

theorem haltCause_unrecognized_iff {u : Word} :
    HaltCause s i (.unrecognizedInstruction u) ↔ i = .unrecognized u := by
  constructor
  · rintro ⟨⟩
    rfl
  · rintro rfl
    exact .unrecognized u

theorem haltCause_spriteOutOfRange_iff :
    HaltCause s i .spriteOutOfRange ↔ ∃ x y n, i = .drw x y n ∧ 0 < n.val ∧ 0xFFF < s.i.toNat + n.val - 1 := by
  constructor
  · rintro ⟨⟩
    exact ⟨_, _, _, rfl, ‹_›, ‹_›⟩
  · rintro ⟨x, y, n, rfl, hn, hmem⟩
    exact .spriteOutOfRange x y n hn hmem

/-- DrawOutOfBounds arises under `Fault` only (45_draw.md R230), and the two normal ends are not an instruction's. -/
theorem not_haltCause_fault_or_normal_end : ¬ HaltCause s i .drawOutOfBounds ∧ ¬ HaltCause s i .hostStop ∧
    ¬ HaltCause s i .noMoreInstructions :=
  ⟨nofun, nofun, nofun⟩

/-- Settles O21: the advance of PC changes neither SP nor I, so the causes may be read before it. -/
theorem statusAfterStep : Obligations.StatusAfterStep := by
  unfold Obligations.StatusAfterStep
  intro s t w hf h
  have halts := (effect_of_exec (hf.step_eq.symm.trans h)).status_eq_halted_iff hf.running
  obtain ⟨hdraw, hstop, hmore⟩ := not_haltCause_fault_or_normal_end (s := s.advancePc) (i := decode w)
  exact ⟨(halts _).trans haltCause_stackUnderflow_iff, (halts _).trans haltCause_stackOverflow_iff,
    fun u => (halts _).trans haltCause_unrecognized_iff, (halts _).trans haltCause_spriteOutOfRange_iff,
    mt (halts _).1 hdraw, mt (halts _).1 hstop, mt (halts _).1 hmore⟩

/-! ## The random source (R127, 43_register.md R195) -/

/-- Every instruction but RND does the same whatever the draw counter is, and leaves it. -/
theorem Effect.with_rngDraws (e : Effect s i t) (hrnd : ∀ x k, i ≠ .rnd x k) (n : Nat) :
    Effect { s with rngDraws := n } i { t with rngDraws := n } := by
  cases e with
  | rnd x k => exact absurd rfl (hrnd x k)
  | ret hsp p hp => exact Effect.ret (s := { s with rngDraws := n }) hsp p hp
  | retUnderflow hsp => exact .retUnderflow hsp
  | call a hsp => exact Effect.call (s := { s with rngDraws := n }) a hsp
  | callOverflow a hsp => exact .callOverflow a hsp
  | drw x y m d hmem hd => exact .drw x y m d hmem hd
  | drwPastMemory x y m hn hmem => exact .drwPastMemory x y m hn hmem
  | _ => constructor

/-- An instruction has one effect on a state: the two ends of RET, of CALL and of DRW exclude each other. -/
theorem Effect.unique {u : State} (e : Effect s i t) (e' : Effect s i u) : t = u := by
  cases e with
  | ret hsp p hp =>
    cases e' with
    | ret _ p' hp' =>
      cases Fin.ext (hp.trans hp'.symm)
      rfl
    | retUnderflow => omega
  | retUnderflow hsp =>
    cases e' with
    | ret => omega
    | retUnderflow => rfl
  | call a hsp =>
    cases e' with
    | call => rfl
    | callOverflow => omega
  | callOverflow a hsp =>
    cases e' with
    | call => omega
    | callOverflow => rfl
  | drw x y n d hmem hd =>
    cases e' with
    | drw _ _ _ d' _ hd' => rw [hd, hd']
    | drwPastMemory => omega
  | drwPastMemory x y n hn hmem =>
    cases e' with
    | drw => omega
    | drwPastMemory => rfl
  | _ => cases e'; rfl

/-- `exec` is determined by the effect, as `effect_of_exec` says the converse. -/
theorem exec_of_effect (e : Effect s i t) : exec i s = .next t := by
  obtain ⟨u, hu⟩ := exec_next i s
  rw [hu, e.unique (effect_of_exec hu)]

/-- Settles O46: the effect in the state with the other counter is the same effect. -/
theorem onlyRndSeesRandomByte : Obligations.OnlyRndSeesRandomByte := by
  unfold Obligations.OnlyRndSeesRandomByte
  exact fun i s t n hrnd h => exec_of_effect ((effect_of_exec h).with_rngDraws hrnd n)

/-! ## Load (R121 to R123) -/

theorem load_of_ne_reset (p : List Byte) (h : s ≠ State.reset) : load p s = .refused .loadNotFresh := if_neg h

/-- The record of a load is kept over a run. -/
theorem run_keeps_loaded {k : Nat} (h : Host.Core.run Sys2Proof.core k s = .next t) : t.loaded = s.loaded :=
  Laws.run_induct (M := Sys2Proof.core) (P := fun u : State => u.loaded = s.loaded)
    (fun _ _ hu hstep => let ⟨_, _, hloaded⟩ := step_keeps_memory hstep; hloaded.trans hu) rfl h

/-- What holds of the reset machine after its first step and ever after: nothing is in memory, so every word is SYS, and
PC has moved on from 0x200 unless the machine has halted. -/
structure State.PastReset (s : State) : Prop where
  memEmpty : s.mem = []
  pcMoved : s.status = .running → 0x200 < s.pc.toNat

theorem State.PastReset.ne_reset (h : s.PastReset) : s ≠ State.reset := by
  rintro rfl
  exact absurd (h.pcMoved rfl) (by decide)

/-- Over empty memory the fetched word is 0x0000, which is SYS (30_encoding.md R80). -/
theorem State.Fetching.decode_of_mem_empty (hf : s.Fetching w) (hm : s.mem = []) : decode w = .sys := by
  have hw : w.toNat = 0 := by simp [hf.bytes, hm, Memory.read, Memory.unlisted]
  rw [BitVec.eq_of_toNat_eq (y := 0x0000) hw]
  decide

/-- A step from 0x200 or above over empty memory: SYS moves PC on, without wrapping, and any halt ends it. -/
theorem step_pastReset (h : step s = .next t) (hm : s.mem = []) (hpc : s.status = .running → 0x200 ≤ s.pc.toNat) :
    t.PastReset := by
  refine ⟨(step_keeps_memory h).1.trans hm, fun ht => ?_⟩
  rcases step_cases h with ⟨r, hs, rfl⟩ | ⟨_, _, rfl⟩ | ⟨w, hf, e⟩
  · cases hs.symm.trans ht
  · cases ht
  · rw [hf.decode_of_mem_empty hm] at e
    cases e
    have hlow := hpc hf.running
    have hhigh := hf.inMemory
    rw [State.advancePc_pc]
    bv_omega

/-- One or more steps take the reset machine past the reset state. -/
theorem run_reset_pastReset {k : Nat} (h : Host.Core.run Sys2Proof.core (k + 1) State.reset = .next t) :
    t.PastReset := by
  obtain ⟨u, hu, hk⟩ := Laws.run_succ_inv (M := Sys2Proof.core) h
  have first : State.PastReset u := step_pastReset (s := State.reset) hu rfl fun _ => by decide
  exact Laws.run_induct (M := Sys2Proof.core) (P := State.PastReset)
    (fun s t hs hstep => step_pastReset hstep hs.memEmpty fun hrun => (hs.pcMoved hrun).le) first hk

/-- Settles O51; the empty program leaves every address outside it. -/
theorem loadBoundary : Obligations.LoadBoundary := by
  unfold Obligations.LoadBoundary
  refine ⟨fun p hp => ⟨_, load_reset_of_le hp.le⟩, fun p hp => load_reset_of_lt hp.ge,
    _, load_reset_of_le (Nat.zero_le _), fun a => ?_⟩
  exact State.withProgram_read_outside _ (Nat.lt_or_ge a 0x200)

/-- Settles O52: a run keeps the record of the load, which the reset state has not, and a step moves the reset machine's
PC or halts it. -/
theorem loadOnlyOnceAndFirst : Obligations.LoadOnlyOnceAndFirst := by
  unfold Obligations.LoadOnlyOnceAndFirst
  refine ⟨fun p q s t k hp hrun => load_of_ne_reset q ?_, fun q t k hrun =>
    load_of_ne_reset q (run_reset_pastReset hrun).ne_reset⟩
  obtain ⟨_, rfl⟩ := load_reset_ok hp
  rintro rfl
  cases run_keeps_loaded hrun

/-! ## The run (R130, R131) -/

/-- Settles O54; with no polls left the run of a halted machine returns the reason its status records. -/
theorem runHostStopAndHalted : Obligations.RunHostStopAndHalted := by
  unfold Obligations.RunHostStopAndHalted
  refine ⟨fun s polls => runUnder_hostStop, fun s polls r hs => ?_⟩
  cases polls with
  | nil => rw [run, runUnder, hs, Status.reason]
  | cons cont polls => exact runUnder_of_halted hs

/-- The result `r` tells the first `n` steps from `s`: it has the state they reach and the reason recorded there,
and its trace and its buffers are those of the steps that executed an instruction, in their order. -/
structure RunResult.Tells (r : RunResult) (n : Nat) (s : State) : Prop where
  state_eq : Host.Core.run Sys2Proof.core n s = .next r.state
  ended_eq : r.ended = r.state.status.reason
  bounded : r.Bounded n
  complete : ∀ (k : Nat) (u : State) (w : Word) (i : Instr), k < n → Host.Core.run Sys2Proof.core k s = .next u →
    stepResult u = some (.executed w i) → k < r.trace.length
  sound : ∀ (k : Nat) (h : k < r.trace.length), ∃ u u' : State,
    Host.Core.run Sys2Proof.core k s = .next u ∧ Host.Core.run Sys2Proof.core (k + 1) s = .next u' ∧
    stepResult u = some (.executed r.trace[k].1 r.trace[k].2) ∧ u'.status = .running ∧
    r.presented[k]? = some u'.fb.view

theorem RunResult.tells_no_steps (s : State) : RunResult.Tells ⟨s, [], [], s.status.reason⟩ 0 s where
  state_eq := rfl
  ended_eq := rfl
  bounded := RunResult.bounded_of_nothing_traced ..
  complete _ _ _ _ hk := absurd hk (Nat.not_lt_zero _)
  sound _ hk := absurd hk (Nat.not_lt_zero _)

/-- A step that executes nothing to its end halts the machine, so no later one executes anything. -/
theorem RunResult.tells_halt {q : HaltReason} (n : Nat) (h : step s = .next t) (ht : t.status = .halted q)
    (hres : ∀ w i, stepResult s ≠ some (.executed w i)) :
    RunResult.Tells ⟨t, [], [], t.status.reason⟩ (n + 1) s := by
  have later (k : Nat) : Host.Core.run Sys2Proof.core (k + 1) s = .next t :=
    (Laws.run_succ_of_next (M := Sys2Proof.core) k h).trans (run_of_halted k ht)
  refine ⟨later n, rfl, RunResult.bounded_of_nothing_traced .., fun k u w i _ hu hw => ?_,
    fun _ hk => absurd hk (Nat.not_lt_zero _)⟩
  cases k with
  | zero => cases hu; exact absurd hw (hres w i)
  | succ k =>
    cases (later k).symm.trans hu
    cases (returned_of_halted ht).symm.trans hw

/-- An executed step before the steps a result tells: its entry and the view of its framebuffer come first. -/
theorem RunResult.Tells.cons {r : RunResult} {n : Nat} (hr : r.Tells n t) (h : step s = .next t)
    (ht : t.status = .running) (hres : stepResult s = some (.executed w i)) :
    RunResult.Tells ⟨r.state, t.fb.view :: r.presented, (w, i) :: r.trace, r.ended⟩ (n + 1) s := by
  have shift (k : Nat) : Host.Core.run Sys2Proof.core (k + 1) s = Host.Core.run Sys2Proof.core k t :=
    Laws.run_succ_of_next (M := Sys2Proof.core) k h
  refine ⟨(shift n).trans hr.state_eq, hr.ended_eq, hr.bounded.cons _ _, fun k u w' i' hk hu hw => ?_, fun k hk => ?_⟩
  · cases k with
    | zero => exact Nat.zero_lt_succ _
    | succ k =>
      exact Nat.succ_lt_succ (hr.complete k u w' i' (Nat.lt_of_succ_lt_succ hk) ((shift k).symm.trans hu) hw)
  · cases k with
    | zero => exact ⟨s, t, rfl, shift 0, hres, ht, rfl⟩
    | succ k =>
      obtain ⟨u, u', hu, hu', hrest⟩ := hr.sound k (Nat.lt_of_succ_lt_succ hk)
      exact ⟨u, u', (shift k).trans hu, (shift (k + 1)).trans hu', hrest⟩

/-- On this hardware a step of a run is `step`, whatever the run's history: the free generator reads none of it. -/
theorem stepUnder_freeRng (past : List State) (s : State) :
    stepUnder Config.hardware (freeRng past s) s = step s := by
  obtain ⟨_, _, _, hstep, _⟩ := stepIsStepAtTheHardwaresParameters
  exact (hstep s).symm

theorem stepResultUnder_freeRng (past : List State) (s : State) :
    stepResultUnder Config.hardware (freeRng past s) s = stepResult s := by
  obtain ⟨_, _, _, _, hresult⟩ := stepIsStepAtTheHardwaresParameters
  exact (hresult s).symm

/-- A run the host does not stop tells its steps, by induction on the polls: an executed step leaves the machine running
and the run goes on from there, every other step leaves it halted. -/
theorem runUnder_tells (n : Nat) (past : List State) (s : State) :
    ∃ r, runUnder Config.hardware freeRng past (List.replicate n true) s = .next r ∧ r.Tells n s := by
  induction n generalizing past s with
  | zero => exact ⟨_, rfl, RunResult.tells_no_steps s⟩
  | succ n ih =>
    obtain ⟨t, h⟩ := step_next s
    have hunder := (stepUnder_freeRng past s).trans h
    have hresult := stepResultUnder_freeRng past s
    rw [List.replicate_succ]
    rcases Laws.returned_cases h with
      ⟨q, hs, rfl, hres⟩ | ⟨hs, _, rfl, hres⟩ | ⟨w, _, hs, _, _, ⟨ht, hres⟩ | ⟨q, ht, hres⟩⟩
    · exact ⟨_, (runUnder_of_halted hs).trans (by rw [hs, Status.reason]),
        RunResult.tells_halt n h hs (by simp [stepResult, hres])⟩
    · exact ⟨_, runUnder_ended hs hunder (hresult.trans hres) nofun,
        RunResult.tells_halt n h rfl (by simp [stepResult, hres])⟩
    · obtain ⟨r, hrun, hr⟩ := ih (s :: past) t
      exact ⟨_, runUnder_executed hs hunder (hresult.trans hres) hrun, hr.cons h ht hres⟩
    · exact ⟨_, runUnder_ended hs hunder (hresult.trans hres) nofun,
        RunResult.tells_halt n h ht (by simp [stepResult, hres])⟩

/-- Settles O55: the run tells its steps, and a presented buffer is the physical view pixel by pixel. -/
theorem runFollowsSteps : Obligations.RunFollowsSteps := by
  unfold Obligations.RunFollowsSteps
  intro n s
  obtain ⟨r, hrun, hr⟩ := runUnder_tells n [] s
  obtain ⟨hlen, hle⟩ := hr.bounded
  refine ⟨r.state, r, hr.state_eq, hrun, rfl, hr.ended_eq, hlen, hle, hr.complete, fun k hk => ?_⟩
  obtain ⟨u, u', hu, hu', hres, hrunning, hbuffer⟩ := hr.sound k hk
  exact ⟨u, u', hu, hu', hres, hrunning, hbuffer, u'.fb.get_view⟩

end Sys2Proof.Machine
end

section
/-! SUPPORT. The words that decode to JP and CALL, the two ends of RET and of CALL as next states, and the jump to itself;
from these, the statements of 41_control.md. -/

namespace Sys2Proof.Machine

variable {s : State} {w : Word} {a : Addr} {j : Fin 16}

/-- A word with the value of a well-formed instruction's encoding decodes to it (30_encoding.md R93). -/
theorem decode_of_toNat_eq_encode {i : Instr} (hi : i.wf = true) (hw : w.toNat = (encode i).toNat) : decode w = i := by
  rw [BitVec.eq_of_toNat_eq hw]
  exact decodeEncodeRoundTrip i hi

theorem decode_jp (hw : w.toNat = 0x1000 + a.toNat) : decode w = .jp a :=
  decode_of_toNat_eq_encode rfl (hw.trans (formatA_toNat 0x1 a).symm)

theorem decode_call (hw : w.toNat = 0x2000 + a.toNat) : decode w = .call a :=
  decode_of_toNat_eq_encode rfl (hw.trans (formatA_toNat 0x2 a).symm)

/-! ## The meanings as next states (R150 to R153) -/

theorem exec_sys (s : State) : exec .sys s = .next s := exec_of_effect .sys

theorem exec_jp (a : Addr) (s : State) : exec (.jp a) s = .next { s with pc := a.setWidth 16 } := exec_of_effect (.jp a)

/-- RET with `j + 1` entries in use pops entry `j`. -/
theorem exec_ret_of_sp_succ (hsp : s.sp = j.succ) :
    exec .ret s = .next { s with sp := j.castSucc, pc := s.stack[j.val] } := by
  cases s
  cases hsp
  exact exec_of_effect (.ret j.val.succ_pos j.castSucc rfl)

theorem exec_ret_of_sp_zero (hsp : s.sp = 0) : exec .ret s = .next { s with status := .halted .stackUnderflow } :=
  exec_of_effect (.retUnderflow (congrArg Fin.val hsp))

/-- CALL with `j` entries in use, and so room for one, writes entry `j`. -/
theorem exec_call_of_sp_castSucc (a : Addr) (hsp : s.sp = j.castSucc) :
    exec (.call a) s = .next { s with stack := s.stack.set j.val s.pc, sp := j.succ, pc := a.setWidth 16 } := by
  cases s
  cases hsp
  exact exec_of_effect (.call a j.isLt)

theorem exec_call_of_sp_max (a : Addr) (hsp : s.sp = 16) :
    exec (.call a) s = .next { s with status := .halted .stackOverflow } :=
  exec_of_effect (.callOverflow a (congrArg Fin.val hsp))

/-! ## The step at a control transfer (R154) -/

/-- A step at a CALL with room on the stack stores the address after it (R153). -/
theorem State.Fetching.step_call (hf : s.Fetching w) (hd : decode w = .call a) (hsp : s.sp = j.castSucc) :
    step s = .next { s with stack := s.stack.set j.val (s.pc + 2), sp := j.succ, pc := a.setWidth 16 } := by
  rw [hf.step_eq, hd]
  exact exec_call_of_sp_castSucc (s := s.advancePc) a hsp

/-- A step at a RET goes to the top entry of a stack that is not empty (R151). -/
theorem State.Fetching.step_ret (hf : s.Fetching 0x00EE) (hsp : s.sp = j.succ) :
    step s = .next { s with sp := j.castSucc, pc := s.stack[j.val] } := by
  rw [hf.step_eq, (decode_eq_ret_iff _).2 rfl]
  exact exec_ret_of_sp_succ (s := s.advancePc) hsp

/-- A jump to its own address changes nothing: it takes back the advance of PC (R152). -/
theorem State.Fetching.step_jp_self (hf : s.Fetching w) (hd : decode w = .jp a) (hpc : s.pc = a.setWidth 16) :
    step s = .next s := by
  rw [hf.step_eq, hd, exec_jp, ← hpc]
  rfl

theorem run_of_step_self (k : Nat) (h : step s = .next s) : Host.Core.run Sys2Proof.core k s = .next s := by
  induction k with
  | zero => rfl
  | succ k ih => exact (Laws.run_succ_of_next (M := Sys2Proof.core) k h).trans ih

/-! ## The statements of 41_control.md -/

/-- Settles O28: the CALL leaves its own address plus 2 in entry `j`, which is the entry the RET pops. -/
theorem callThenRetComesBack : Obligations.CallThenRetComesBack := by
  unfold Obligations.CallThenRetComesBack
  intro s w a j hf hd hsp
  refine ⟨_, hf.step_call hd hsp, rfl, hf.running, fun u hu husp hentry => ⟨_, hu.step_ret husp, ?_, hsp.symm, hu.running⟩⟩
  calc u.stack[j.val]
    _ = (s.stack.set j.val (s.pc + 2))[j.val] := hentry
    _ = s.pc + 2 := Vector.getElem_set_self j.isLt

/-- Settles O24: the group 0x0 without RET's word is SYS, so the step keeps only the advance of PC. -/
theorem sysChangesNothing : Obligations.SysChangesNothing := by
  unfold Obligations.SysChangesNothing
  have decode_sys (w : Word) (hlt : w.toNat < 0x1000) (hne : w ≠ 0x00EE) : decode w = .sys :=
    (decode_eq_sys_iff w).2 ⟨hlt, hne⟩
  refine ⟨decode_sys, exec_sys, fun s w hf hlt hne => ?_⟩
  rw [hf.step_eq, decode_sys w hlt hne]
  exact exec_sys s.advancePc

/-- Settles O25, by the two ends of RET. -/
theorem retPopsOrUnderflows : Obligations.RetPopsOrUnderflows := by
  unfold Obligations.RetPopsOrUnderflows
  exact ⟨fun s j => exec_ret_of_sp_succ, fun s => exec_ret_of_sp_zero⟩

/-- Settles O26: a jump to its own address is a fixed point of the step, and at 0xFFF no word fits below 0x1000. -/
theorem jpSetsPc : Obligations.JpSetsPc := by
  unfold Obligations.JpSetsPc
  refine fun a => ⟨fun w => decode_jp, exec_jp a,
    fun s w hf hw hpc k => run_of_step_self k (hf.step_jp_self (decode_jp hw) hpc), ?_⟩
  rintro rfl s t hs h
  cases (exec_jp 0xFFF s).symm.trans h
  exact cycle_of_limit_lt hs (by decide : 0x1000 < 0xFFF + 2)

/-- Settles O27, by the two ends of CALL. -/
theorem callPushesOrOverflows : Obligations.CallPushesOrOverflows := by
  unfold Obligations.CallPushesOrOverflows
  exact fun a => ⟨fun w => decode_call, fun s j => exec_call_of_sp_castSucc a, fun s => exec_call_of_sp_max a⟩

end Sys2Proof.Machine
end

section
/-! SUPPORT. The words that decode to the four skips, and a skip as a next state by its condition; from these, the
statements of 42_skip.md. -/

namespace Sys2Proof.Machine

variable {s : State} {i : Instr} {w : Word} {x y : Reg} {k : Byte}

/-! ## The words of the skips (30_encoding.md R91) -/

theorem decode_seImm (hw : w.toNat = 0x3000 + x.val * 0x100 + k.toNat) : decode w = .seImm x k :=
  decode_of_toNat_eq_encode rfl (hw.trans (formatXK_toNat 0x3 x k).symm)

theorem decode_sneImm (hw : w.toNat = 0x4000 + x.val * 0x100 + k.toNat) : decode w = .sneImm x k :=
  decode_of_toNat_eq_encode rfl (hw.trans (formatXK_toNat 0x4 x k).symm)

theorem decode_seReg (hw : w.toNat = 0x5000 + x.val * 0x100 + y.val * 0x10) : decode w = .seReg x y :=
  decode_of_toNat_eq_encode rfl (hw.trans (formatXYN_toNat 0x5 x y 0x0).symm)

theorem decode_sneReg (hw : w.toNat = 0x9000 + x.val * 0x100 + y.val * 0x10) : decode w = .sneReg x y :=
  decode_of_toNat_eq_encode rfl (hw.trans (formatXYN_toNat 0x9 x y 0x0).symm)

/-! ## The meanings as next states (R170 to R173) -/

/-- A skip on the Boolean test of `p` is the skip on `p`. -/
theorem skipIf_of_iff {c : Bool} {p : Prop} [Decidable p] (h : c = true ↔ p) (s : State) :
    skipIf c s = .next (if p then { s with pc := s.pc + 2 } else s) :=
  congrArg Host.Outcome.next (if_congr h rfl rfl)

theorem exec_seImm (x : Reg) (k : Byte) (s : State) :
    exec (.seImm x k) s = .next (if s.readV x = k then { s with pc := s.pc + 2 } else s) := skipIf_of_iff beq_iff_eq s

theorem exec_sneImm (x : Reg) (k : Byte) (s : State) :
    exec (.sneImm x k) s = .next (if s.readV x ≠ k then { s with pc := s.pc + 2 } else s) := skipIf_of_iff bne_iff_ne s

theorem exec_seReg (x y : Reg) (s : State) :
    exec (.seReg x y) s = .next (if s.readV x = s.readV y then { s with pc := s.pc + 2 } else s) :=
  skipIf_of_iff beq_iff_eq s

theorem exec_sneReg (x y : Reg) (s : State) :
    exec (.sneReg x y) s = .next (if s.readV x ≠ s.readV y then { s with pc := s.pc + 2 } else s) :=
  skipIf_of_iff bne_iff_ne s

/-! ## A taken skip (R174) -/

/-- The instruction is a skip whose condition the registers meet. -/
def State.TakesSkip (s : State) (i : Instr) : Prop :=
  (∃ x k, i = .seImm x k ∧ s.readV x = k) ∨ (∃ x k, i = .sneImm x k ∧ s.readV x ≠ k) ∨
    (∃ x y, i = .seReg x y ∧ s.readV x = s.readV y) ∨ ∃ x y, i = .sneReg x y ∧ s.readV x ≠ s.readV y

theorem State.TakesSkip.exec_eq (h : s.TakesSkip i) : exec i s = .next { s with pc := s.pc + 2 } := by
  rcases h with ⟨x, k, rfl, h⟩ | ⟨x, k, rfl, h⟩ | ⟨x, y, rfl, h⟩ | ⟨x, y, rfl, h⟩
  · rw [exec_seImm, if_pos h]
  · rw [exec_sneImm, if_pos h]
  · rw [exec_seReg, if_pos h]
  · rw [exec_sneReg, if_pos h]

/-- A step at a taken skip adds 2 to PC twice: the advance after the fetch (R125) and the skip. -/
theorem State.Fetching.step_skip (hf : s.Fetching w) (h : s.TakesSkip (decode w)) :
    step s = .next { s with pc := s.pc + 4 } := by
  have hskip : s.advancePc.TakesSkip (decode w) := h
  have hpc : s.pc + 2 + 2 = s.pc + 4 := BitVec.add_assoc s.pc 2 2
  rw [hf.step_eq, hskip.exec_eq, State.advancePc_pc, hpc]
  rfl

/-! ## The statements of 42_skip.md -/

/-- Settles O31: the step reads no word but the fetched one, and no word fits at 0x1002 below 0x1000. -/
theorem takenSkipIgnoresSkippedWord : Obligations.TakenSkipIgnoresSkippedWord := by
  unfold Obligations.TakenSkipIgnoresSkippedWord
  refine fun s w hf hskip => ⟨hf.step_skip hskip, fun hpc => ?_⟩
  rw [hpc]
  exact cycle_of_limit_lt hf.running (by decide : 0x1000 < 0x1002 + 2)

/-- Settles O29, by the words and the meanings of the two skips on a byte. -/
theorem skipsOnImmediate : Obligations.SkipsOnImmediate := by
  unfold Obligations.SkipsOnImmediate
  exact fun x k => ⟨fun w => decode_seImm, fun w => decode_sneImm, exec_seImm x k, exec_sneImm x k⟩

/-- Settles O30: the words with a nonzero low nibble are in R95's list, and with x = y the comparison is of a register
with itself. -/
theorem skipsOnRegister : Obligations.SkipsOnRegister := by
  unfold Obligations.SkipsOnRegister
  refine ⟨fun x y w => decode_seReg, fun x y w => decode_sneReg, fun w hop hn => ?_,
    fun x y s => ⟨exec_seReg x y s, exec_sneReg x y s⟩, fun x s => ⟨?_, ?_⟩⟩
  · refine (unrecognizedWordsAreTheListedOnes w w).2 ⟨rfl, ?_⟩
    rcases hop with h5 | h9
    · exact .inl ⟨h5, hn⟩
    · exact .inr (.inr (.inl ⟨h9, hn⟩))
  · rw [exec_seReg, if_pos rfl]
  · rw [exec_sneReg, if_neg (not_not_intro rfl)]

end Sys2Proof.Machine
end

section
/-! SUPPORT. The words that decode to the loads and additions of registers and to RND, what two register writes leave, and
the value and the carry of an 8-bit sum; from these, the statements of 43_register.md. -/

namespace Sys2Proof.Machine

variable {w : Word} {x y : Reg} {k : Byte}

/-! ## The words of the register instructions (30_encoding.md R91) -/

theorem decode_ldImm (hw : w.toNat = 0x6000 + x.val * 0x100 + k.toNat) : decode w = .ldImm x k :=
  decode_of_toNat_eq_encode rfl (hw.trans (formatXK_toNat 0x6 x k).symm)

theorem decode_addImm (hw : w.toNat = 0x7000 + x.val * 0x100 + k.toNat) : decode w = .addImm x k :=
  decode_of_toNat_eq_encode rfl (hw.trans (formatXK_toNat 0x7 x k).symm)

theorem decode_rnd (hw : w.toNat = 0xC000 + x.val * 0x100 + k.toNat) : decode w = .rnd x k :=
  decode_of_toNat_eq_encode rfl (hw.trans (formatXK_toNat 0xC x k).symm)

theorem decode_addReg (hw : w.toNat = 0x8004 + x.val * 0x100 + y.val * 0x10) : decode w = .addReg x y := by
  have henc : (encode (.addReg x y)).toNat = 0x8000 + x.val * 0x100 + y.val * 0x10 + 4 := formatXYN_toNat 0x8 x y 0x4
  exact decode_of_toNat_eq_encode rfl (by omega)

/-! ## Register writes (10_state.md R21) -/

theorem State.writeV_readV (s : State) (x : Reg) : s.writeV x (s.readV x) = s :=
  congrArg (fun v => { s with v := v }) (Vector.set_getElem_self x.isLt)

theorem State.writeV_writeV_self (s : State) (x : Reg) (a b : Byte) : (s.writeV x a).writeV x b = s.writeV x b :=
  congrArg (fun v => { s with v := v }) (Vector.set_set a x.isLt)

/-- Two writes leave the values read afterwards: where they hit one register, the later one replaced the first. -/
theorem State.eq_writeV_writeV {s t : State} {a b : Byte} (ht : t = (s.writeV x a).writeV y b) :
    t = (s.writeV x (t.readV x)).writeV y (t.readV y) := by
  have hy : t.readV y = b := by rw [ht, State.readV_writeV_self]
  by_cases hxy : x = y
  · subst hxy
    rw [hy, State.writeV_writeV_self, ht, State.writeV_writeV_self]
  · have hx : t.readV x = a := by rw [ht, State.readV_writeV_of_ne b hxy, State.readV_writeV_self]
    rw [hx, hy, ht]

/-! ## The 8-bit sum and its carry (43_register.md R193) -/

theorem sum8_toNat (a b : Byte) : (sum8 a b).toNat = (a.toNat + b.toNat) % 256 := BitVec.toNat_ofNat _ 8

theorem sum8_zero (a : Byte) : sum8 a 0 = a := (sum8_eq a 0).trans (BitVec.add_zero a)

theorem flagByte_carry (a b : Byte) : flagByte (carry a b) = if 256 ≤ a.toNat + b.toNat then 1 else 0 :=
  if_congr decide_eq_true_iff rfl rfl

/-! ## The statements of 43_register.md -/

/-- Settles O34: the sum is written first and the flag last, so with x = 0xF only the flag is left. -/
theorem addRegWritesSumThenCarry : Obligations.AddRegWritesSumThenCarry := by
  unfold Obligations.AddRegWritesSumThenCarry
  refine ⟨fun x y w => decode_addReg, fun w h8 hn => ?_,
    fun x y s => ⟨_, exec_of_effect (.addReg x y), State.eq_writeV_writeV rfl, ?_, fun hx => ?_⟩⟩
  · exact (unrecognizedWordsAreTheListedOnes w w).2 ⟨rfl, .inr (.inl ⟨h8, hn⟩)⟩
  · rw [State.readV_writeFlag, if_pos rfl, flagByte_carry]
  · rw [State.readV_writeFlag, if_neg hx.symm, State.readV_writeV_self, sum8_toNat]

/-- Settles O32, by the one register write that LD is. -/
theorem ldImmLoadsByte : Obligations.LdImmLoadsByte := by
  unfold Obligations.LdImmLoadsByte
  exact fun x k => ⟨fun w => decode_ldImm, fun s => ⟨_, exec_of_effect (.ldImm x k), rfl, s.readV_writeV_self x k,
    fun y => State.readV_writeV_of_ne k⟩⟩

/-- Settles O33; adding 0 writes back the value the register holds. -/
theorem addImmWrapsWithoutFlag : Obligations.AddImmWrapsWithoutFlag := by
  unfold Obligations.AddImmWrapsWithoutFlag
  refine fun x k => ⟨fun w => decode_addImm, fun s => ⟨_, exec_of_effect (.addImm x k), ?_, ?_, fun hx => ?_⟩, fun s => ?_⟩
  · rw [State.readV_writeV_self]
    rfl
  · rw [State.readV_writeV_self, sum8_toNat]
  · exact State.readV_writeV_of_ne _ hx.symm
  · rw [exec_of_effect (.addImm x 0), sum8_zero, State.writeV_readV]

/-- Settles O37; the byte 0xFF masks nothing. -/
theorem rndMasksDrawnByte : Obligations.RndMasksDrawnByte := by
  unfold Obligations.RndMasksDrawnByte
  refine fun x k => ⟨fun w => decode_rnd, fun s => ⟨_, _, exec_of_effect (.rnd x k), rfl, rfl, fun j hj => ?_, fun hk => ?_⟩,
    fun s r => rfl⟩
  · rw [rndWith, State.readV_writeV_self, BitVec.getLsbD_and, hj, Bool.and_false]
  · rw [rndWith, State.readV_writeV_self, hk]
    exact BitVec.and_allOnes

end Sys2Proof.Machine
end

section
/-! SUPPORT. The words that decode to the two instructions on I, and the values of their zero-extended operands; from
these, the statements of 44_index.md. -/

namespace Sys2Proof.Machine

variable {w : Word} {x : Reg} {a : Addr}

/-! ## The words of the instructions on I (30_encoding.md R91) -/

theorem decode_ldI (hw : w.toNat = 0xA000 + a.toNat) : decode w = .ldI a :=
  decode_of_toNat_eq_encode rfl (hw.trans (formatA_toNat 0xA a).symm)

theorem decode_addI (hw : w.toNat = 0xF01E + x.val * 0x100) : decode w = .addI x := by
  have henc : (encode (.addI x)).toNat = 0xF000 + x.val * 0x100 + 0x1E := formatXK_toNat 0xF x 0x1E
  exact decode_of_toNat_eq_encode rfl (by omega)

/-! ## The zero-extended operands (R210, R212) -/

theorem addrValue_toNat (a : Addr) : (addrValue a).toNat = a.toNat := BitVec.toNat_setWidth_of_le (by decide)

theorem State.readV16_toNat (s : State) (x : Reg) : (s.readV16 x).toNat = (s.readV x).toNat :=
  BitVec.toNat_setWidth_of_le (by decide)

/-! ## The statements of 44_index.md -/

/-- Settles O35, by the one write of I that LD I is; the address keeps its value when it is widened. -/
theorem ldISetsIndex : Obligations.LdISetsIndex := by
  unfold Obligations.LdISetsIndex
  exact fun a => ⟨fun w => decode_ldI, fun s => ⟨_, exec_of_effect (.ldI a), rfl, addrValue_toNat a⟩⟩

/-- Settles O36: the sum of two words wraps at 65536, and the other words of the group 0xF are in R95's list. -/
theorem addIWrapsWithoutFlag : Obligations.AddIWrapsWithoutFlag := by
  unfold Obligations.AddIWrapsWithoutFlag
  refine ⟨fun x w => decode_addI, fun w hF hk => ?_, fun x s => ⟨_, exec_of_effect (.addI x), rfl, ?_⟩⟩
  · exact (unrecognizedWordsAreTheListedOnes w w).2 ⟨rfl, .inr (.inr (.inr (.inr (.inr ⟨hF, hk⟩))))⟩
  · rw [State.writeI_i, BitVec.toNat_add, State.readV16_toNat]

end Sys2Proof.Machine
end

section
/-! SUPPORT. The cells a draw covers under each edge policy, and the state it leaves (`State.Flips`); from these, the
statements of 45_draw.md. -/

namespace Sys2Proof.Machine

/-! ## The primitive xor (R223) -/

theorem Framebuffer.xor_true_get (fb : Framebuffer) (x x' : Fin 64) (y y' : Fin 32) :
    (fb.xor x y true).fb.get x' y' = if x = x' ∧ y = y' then !fb.get x y else fb.get x' y' :=
  fb.get_set x x' y y' _

/-- Settles O47: a true bit sets the cell to its complement, and a false one is a no-op by definition. -/
theorem xorFlipsOneCell : Obligations.XorFlipsOneCell := by
  unfold Obligations.XorFlipsOneCell
  refine fun fb x y => ⟨⟨rfl, rfl⟩, ?_, rfl, fun x' y' hne => ?_⟩
  · rw [Framebuffer.xor_true_get, if_pos ⟨rfl, rfl⟩]
  · rw [Framebuffer.xor_true_get, if_neg]
    rintro ⟨rfl, rfl⟩
    exact hne rfl

/-! ## The cells a draw covers (R225) -/

section Draw

variable {e : Config.DrawEdge} {x y : Reg} {n : Nib} {s t u : State} {tx : Fin 64} {ty : Fin 32}
  {C : Fin 64 → Fin 32 → Prop}

theorem target_wrap_eq_some_iff {px py : Nat} :
    target .wrap px py = some (tx, ty) ↔ px % 64 = tx.val ∧ py % 32 = ty.val := by
  simp [target, Fin.ext_iff]

theorem target_clip_eq_some_iff {px py : Nat} :
    target .clip px py = some (tx, ty) ↔ px = tx.val ∧ py = ty.val := by
  simp only [target, Option.dite_none_right_eq_some, Option.some.injEq, Prod.mk.injEq, Fin.ext_iff]
  constructor
  · exact fun ⟨_, h⟩ => h
  · rintro ⟨rfl, rfl⟩
    exact ⟨⟨tx.isLt, ty.isLt⟩, rfl, rfl⟩

/-- Some pixel of the sprite `DRW Vx, Vy, n` reads has the cell (tx, ty) as its target under the edge policy. -/
def State.covers (s : State) (e : Config.DrawEdge) (x y : Reg) (n : Nib) (tx : Fin 64) (ty : Fin 32) : Prop :=
  ∃ px py, s.spritePixel x y n px py ∧ target e px py = some (tx, ty)

theorem State.covers_wrap_iff : s.covers .wrap x y n tx ty ↔ s.wrapCell x y n tx ty := by
  simp only [State.covers, State.wrapCell, target_wrap_eq_some_iff]

/-- Under `Clip` a pixel inside the screen is its own cell. -/
theorem State.covers_clip_iff : s.covers .clip x y n tx ty ↔ s.spritePixel x y n tx.val ty.val := by
  simp only [State.covers, target_clip_eq_some_iff]
  constructor
  · rintro ⟨_, _, h, rfl, rfl⟩
    exact h
  · exact fun h => ⟨_, _, h, rfl, rfl⟩

/-- The cells a sprite covers depend on memory, I and the two coordinates. -/
theorem State.covers_congr (hmem : t.mem = s.mem) (hi : t.i = s.i) (hx : t.readV x = s.readV x)
    (hy : t.readV y = s.readV y) : t.covers e x y n = s.covers e x y n := by
  unfold State.covers State.spritePixel
  rw [hmem, hi, hx, hy]

/-- The rows DRW reads: the `n` bytes at I (R230). -/
def State.spriteRows (s : State) (n : Nib) : List Byte := (List.range n.val).map fun j => s.mem.read (s.i.toNat + j)

theorem State.spriteRows_length : (s.spriteRows n).length = n.val := by
  rw [State.spriteRows, List.length_map, List.length_range]

theorem State.spriteRows_length_le (s : State) : (s.spriteRows n).length ≤ 32 := by
  rw [State.spriteRows_length]
  omega

theorem State.spriteRows_getD {dy : Nat} (hdy : dy < n.val) :
    (s.spriteRows n).getD dy 0 = s.mem.read (s.i.toNat + dy) := by
  simp [State.spriteRows, hdy]

theorem State.mem_spriteCells_iff :
    (tx, ty) ∈ spriteCells e (s.coordinate x) (s.coordinate y) (s.spriteRows n) ↔ s.covers e x y n tx ty := by
  rw [mem_spriteCells, State.spriteRows_length]
  constructor
  · rintro ⟨dy, dx, hdy, hdx, hbit, ht⟩
    rw [State.spriteRows_getD hdy] at hbit
    exact ⟨_, _, ⟨dy, dx, hdy, hdx, hbit, rfl, rfl⟩, ht⟩
  · rintro ⟨_, _, ⟨dy, dx, hdy, hdx, hbit, rfl, rfl⟩, ht⟩
    exact ⟨dy, dx, hdy, hdx, by rw [State.spriteRows_getD hdy]; exact hbit, ht⟩

/-! ## The state a draw leaves (R227, R230, R232) -/

/-- The state `t` is `s` with the cells in `C` flipped and VF the flag of a flip from set to unset. -/
structure State.Flips (s t : State) (C : Fin 64 → Fin 32 → Prop) : Prop where
  frame : t = { s with fb := t.fb, v := s.v.set VF.val (t.readV VF) }
  cells : ∀ tx ty, t.fb.get tx ty = true ↔ ¬ (s.fb.get tx ty = true ↔ C tx ty)
  hit : (∃ tx ty, s.fb.get tx ty = true ∧ C tx ty) → t.readV VF = 1
  miss : (¬ ∃ tx ty, s.fb.get tx ty = true ∧ C tx ty) → t.readV VF = 0

theorem State.Flips.vf_cases (h : s.Flips t C) : t.readV VF = 1 ∨ t.readV VF = 0 :=
  (Classical.em _).imp h.hit h.miss

theorem State.Flips.vf_eq_one_iff (h : s.Flips t C) :
    t.readV VF = 1 ↔ ∃ tx ty, s.fb.get tx ty = true ∧ C tx ty := by
  refine ⟨fun h1 => ?_, h.hit⟩
  by_contra hmiss
  rw [h.miss hmiss] at h1
  exact absurd h1 (by decide)

/-- Flipping the same cells again restores them (R233). -/
theorem State.Flips.fb_eq_of_twice (h : s.Flips t C) (h' : t.Flips u C) : u.fb = s.fb := by
  refine Framebuffer.ext_get fun tx ty => Bool.eq_iff_iff.2 ?_
  rw [h'.cells, h.cells]
  tauto

/-- The cells a second flip finds set are those the first one set. -/
theorem State.Flips.set_and_covered_iff (h : s.Flips t C) :
    t.fb.get tx ty = true ∧ C tx ty ↔ t.fb.get tx ty = true ∧ s.fb.get tx ty = false := by
  rw [h.cells, ← Bool.not_eq_true]
  tauto

/-- What `draw_sprite` makes of the framebuffer for `DRW Vx, Vy, n`, and its flag. -/
def State.drawn (s : State) (e : Config.DrawEdge) (x y : Reg) (n : Nib) : Drawn :=
  drawSprite e (s.coordinate x) (s.coordinate y) (s.spriteRows n) s.fb

/-- The state DRW leaves where it is not fatal: the drawn framebuffer and then the flag. `drwUnder_of_inside` and
`exec_drw_of_inside` tie it to the model. -/
def State.afterDraw (s : State) (e : Config.DrawEdge) (x y : Reg) (n : Nib) : State :=
  (s.writeFb (s.drawn e x y n).fb).writeFlag (s.drawn e x y n).collided

theorem State.drawn_get_iff :
    (s.drawn e x y n).fb.get tx ty = true ↔ ¬ (s.fb.get tx ty = true ↔ s.covers e x y n tx ty) := by
  rw [State.drawn, (drawSprite_spec e _ _ _ s.fb s.spriteRows_length_le tx ty).1, ← State.mem_spriteCells_iff,
    Bool.xor_iff_ne, Ne, Bool.eq_iff_iff, decide_eq_true_iff]

theorem State.drawn_collided_iff :
    (s.drawn e x y n).collided = true ↔ ∃ tx ty, s.fb.get tx ty = true ∧ s.covers e x y n tx ty := by
  rw [State.drawn, (drawSprite_spec e _ _ _ s.fb s.spriteRows_length_le 0 0).2, List.any_eq_true]
  simp [State.mem_spriteCells_iff, and_comm]

theorem State.afterDraw_readV_vf : (s.afterDraw e x y n).readV VF = flagByte (s.drawn e x y n).collided :=
  State.readV_writeV_self ..

theorem State.flips_afterDraw (s : State) (e : Config.DrawEdge) (x y : Reg) (n : Nib) :
    s.Flips (s.afterDraw e x y n) (s.covers e x y n) where
  frame := by
    rw [State.afterDraw_readV_vf]
    rfl
  cells _ _ := State.drawn_get_iff
  hit h := by rw [State.afterDraw_readV_vf, State.drawn_collided_iff.2 h, flagByte_true]
  miss h := by
    rw [State.afterDraw_readV_vf, Bool.eq_false_of_not_eq_true (mt State.drawn_collided_iff.1 h), flagByte_false]

/-! ## DRW under an edge policy (R230, R231) -/

theorem decode_drw {w : Word} (hw : w.toNat = 0xD000 + x.val * 0x100 + y.val * 0x10 + n.val) :
    decode w = .drw x y n := by
  have henc : (encode (.drw x y n)).toNat = 0xD000 + x.val * 0x100 + y.val * 0x10 + (nibBits n).toNat :=
    formatXYN_toNat 0xD x y (nibBits n)
  rw [nibBits_toNat] at henc
  exact decode_of_toNat_eq_encode rfl (hw.trans henc.symm)

theorem drwUnder_of_pastMemory (e : Config.DrawEdge) (hn : 0 < n.val) (hpast : 0xFFF < s.i.toNat + n.val - 1) :
    drwUnder e x y n s = .next { s with status := .halted .spriteOutOfRange } := by
  rcases drwUnder_cases e x y n s with ⟨_, _, h⟩ | ⟨_, hmem, _⟩
  · exact h
  · omega

/-- A sprite inside memory is drawn, unless the policy is `Fault` and a pixel lies outside the screen. -/
theorem drwUnder_of_inside (hmem : n.val = 0 ∨ s.i.toNat + n.val - 1 ≤ 0xFFF)
    (hin : e = .fault → ¬ ∃ px py, s.spritePixel x y n px py ∧ (64 ≤ px ∨ 32 ≤ py)) :
    drwUnder e x y n s = .next (s.afterDraw e x y n) := by
  rcases drwUnder_cases e x y n s with ⟨_, _, _⟩ | ⟨_, _, rfl, ⟨he, hout, _⟩ | ⟨_, h⟩⟩
  · omega
  · exact absurd ((s.spriteOutside_iff_spritePixel x y n).1 hout) (hin he)
  · exact h

theorem exec_drw_of_inside (hmem : n.val = 0 ∨ s.i.toNat + n.val - 1 ≤ 0xFFF) :
    exec (.drw x y n) s = .next (s.afterDraw .wrap x y n) :=
  drwUnder_of_inside (e := .wrap) hmem nofun

/-- `Fault` gives a pixel the cell `Clip` gives it (R225). -/
theorem drawRows_fault (px py : Nat) (rows : List Byte) (d : Drawn) :
    drawRows .fault px py rows d = drawRows .clip px py rows d := by
  induction rows generalizing py d with
  | nil => rfl
  | cons row rows ih => exact ih (py + 1) (drawRow .clip px py row d)

theorem State.drawn_fault : s.drawn .fault x y n = s.drawn .clip x y n := drawRows_fault ..

theorem State.afterDraw_fault : s.afterDraw .fault x y n = s.afterDraw .clip x y n := by
  rw [State.afterDraw, State.drawn_fault, State.afterDraw]

end Draw

/-! ## The statements of 45_draw.md -/

/-- Settles O39: the range check comes before any other work, so the edge policy plays no part. -/
theorem drwPastMemoryIsFatal : Obligations.DrwPastMemoryIsFatal := by
  unfold Obligations.DrwPastMemoryIsFatal
  exact fun x y n s hn hpast => ⟨drwUnder_of_pastMemory .wrap hn hpast, fun e => drwUnder_of_pastMemory e hn hpast⟩

/-- Settles O38: the cells of one draw are distinct, so flipping them one by one is the xor with all of them. -/
theorem drwXorsSprite : Obligations.DrwXorsSprite := by
  unfold Obligations.DrwXorsSprite
  refine ⟨fun x y n w => decode_drw, fun x y n s hmem => ?_⟩
  obtain ⟨frame, cells, hit, miss⟩ := s.flips_afterDraw .wrap x y n
  simp only [State.covers_wrap_iff] at cells hit miss
  exact ⟨_, exec_drw_of_inside hmem, frame, cells, hit, miss⟩

/-- Settles O40: the first draw keeps memory, I and, by hypothesis, the coordinates, so the second flips the same
cells. -/
theorem doubleDrawRestores : Obligations.DoubleDrawRestores := by
  unfold Obligations.DoubleDrawRestores
  intro x y n s t hmem ht hx hy
  cases (exec_drw_of_inside hmem).symm.trans ht
  have hcells : (s.afterDraw .wrap x y n).covers .wrap x y n = s.covers .wrap x y n := State.covers_congr rfl rfl hx hy
  have first := s.flips_afterDraw .wrap x y n
  have second := (s.afterDraw .wrap x y n).flips_afterDraw .wrap x y n
  rw [hcells] at second
  refine ⟨_, exec_drw_of_inside hmem, first.fb_eq_of_twice second, ?_, second.vf_cases⟩
  simp only [second.vf_eq_one_iff, first.set_and_covered_iff]

/-- Settles O41: under `Clip` the covered cells are the pixels inside the screen, and `Fault` without a pixel outside
draws as `Clip`. -/
theorem edgePoliciesClipAndFault : Obligations.EdgePoliciesClipAndFault := by
  unfold Obligations.EdgePoliciesClipAndFault
  intro x y n s hmem
  have hclip : drwUnder .clip x y n s = .next (s.afterDraw .clip x y n) := drwUnder_of_inside hmem nofun
  obtain ⟨frame, cells, hit, miss⟩ := s.flips_afterDraw .clip x y n
  simp only [State.covers_clip_iff] at cells hit miss
  refine ⟨⟨_, hclip, frame, cells, hit, miss⟩, drwUnder_fault_of_outside hmem, fun hin => ?_⟩
  rw [hclip, drwUnder_of_inside hmem fun _ => hin, State.afterDraw_fault]

end Sys2Proof.Machine
end

section
/-! SUPPORT. UNRECOGNIZED as a next state, for `exec` and for the step that fetched its word; from these, the statement of
46_unrecognized.md. -/

namespace Sys2Proof.Machine

variable {s : State} {w : Word}

/-! ## The fatal condition as a next state (R250, R251, R262, decision D13) -/

theorem exec_unrecognized (w : Word) (s : State) :
    exec (.unrecognized w) s = .next { s with status := .halted (.unrecognizedInstruction w) } :=
  exec_of_effect (.unrecognized w)

/-- A step at an unrecognized word keeps the advance of PC in the state it halts (R262). -/
theorem State.Fetching.step_unrecognized (hf : s.Fetching w) (hd : decode w = .unrecognized w) :
    step s = .next { s with pc := s.pc + 2, status := .halted (.unrecognizedInstruction w) } := by
  rw [hf.step_eq, hd]
  exact exec_unrecognized w s.advancePc

/-! ## The statement of 46_unrecognized.md -/

/-- Settles O42: the one effect of UNRECOGNIZED is the halt, and the step adds the advance of PC before it. -/
theorem unrecognizedIsFatal : Obligations.UnrecognizedIsFatal := by
  unfold Obligations.UnrecognizedIsFatal
  exact ⟨exec_unrecognized, fun s w => State.Fetching.step_unrecognized⟩

end Sys2Proof.Machine
end

section
/-! SUPPORT. The state a halting instruction leaves, and a run cut in two; from these, the statements of 60_exceptions.md.
With them the words that 95_test_vectors.md writes out. -/

namespace Sys2Proof.Laws

/-- A run of `j + k` steps that answers a next state is `j` steps and then `k` steps. -/
theorem run_add_inv {M : Host.Core} {s t : M.State} {j k : Nat} (h : M.run (j + k) s = .next t) :
    ∃ u, M.run j s = .next u ∧ M.run k u = .next t := by
  induction j generalizing s with
  | zero => exact ⟨s, rfl, by rwa [Nat.zero_add] at h⟩
  | succ j ih =>
    rw [Nat.succ_add] at h
    obtain ⟨v, hv, hrest⟩ := run_succ_inv h
    obtain ⟨u, hj, hk⟩ := ih hrest
    exact ⟨u, (run_succ_of_next j hv).trans hj, hk⟩

end Sys2Proof.Laws

namespace Sys2Proof.Machine

variable {i : Instr} {s t : State}

/-! ## The fatal conditions (R260 to R263) -/

/-- An instruction that halts a running machine does so for a fatal reason and writes the status alone (R262). -/
theorem Effect.halt_of_status_halted {r : HaltReason} (e : Effect s i t) (hs : s.status = .running)
    (ht : t.status = .halted r) : r.isFatal = true ∧ t = s.halt r := by
  cases e with
  | retUnderflow | callOverflow | drwPastMemory | unrecognized => cases ht; exact ⟨rfl, rfl⟩
  | _ => cases hs.symm.trans ht

/-- No run clears a fatal reason (R263): the machine stays as it is (R128). -/
theorem State.faulted.run_keeps {k : Nat} (hs : s.faulted) (h : Host.Core.run Sys2Proof.core k s = .next t) :
    t.faulted := by
  have ⟨_, hr, _⟩ := hs
  cases (run_of_halted k hr).symm.trans h
  exact hs

/-! ## The statements of 60_exceptions.md -/

/-- Settles O22: the step is the instruction's effect on the state with PC advanced. -/
theorem fatalWritesNothingElse : Obligations.FatalWritesNothingElse := by
  unfold Obligations.FatalWritesNothingElse
  intro s t w r hf h ht
  exact (effect_of_exec (hf.step_eq.symm.trans h)).halt_of_status_halted hf.running ht

/-- Settles O23: a fatal reason recorded after `j` of the `k` steps would be recorded after all of them. -/
theorem safeRunsStaySafe : Obligations.SafeRunsStaySafe := by
  unfold Obligations.SafeRunsStaySafe
  rintro j k s hjk ⟨t, hrun, hsafe⟩
  obtain ⟨d, rfl⟩ := Nat.exists_eq_add_of_le hjk
  obtain ⟨u, hj, hd⟩ := Laws.run_add_inv (M := Sys2Proof.core) hrun
  exact ⟨u, hj, fun hu => hsafe (hu.run_keeps hd)⟩

/-! ## The words of 95_test_vectors.md -/

/-- Settles O7: each word has the value of its instruction's encoding; 0x00E0 is in the SYS group and no row covers
0x8120. -/
theorem sourceVectorsDecode : Obligations.SourceVectorsDecode := by
  unfold Obligations.SourceVectorsDecode
  exact ⟨(decode_eq_ret_iff _).2 rfl, decode_jp rfl, decode_ldImm rfl, decode_drw rfl, decode_addReg rfl,
    (decode_eq_sys_iff _).2 (by decide), decode_addI rfl, (decode_eq_unrecognized_iff _ _).2 ⟨rfl, by decide⟩⟩

end Sys2Proof.Machine
end
